-- ==== Sys2Proof/Word.lean ====
section
/-! DEFINITION. The word and byte types of the block (00_scope.md R7, R9) and its two groups of eight words. -/

namespace Sys2Proof

/-- A 32-bit word; every word of the block is unsigned (R7). -/
abbrev Word := BitVec 32

/-- An unsigned 8-bit value (R9). -/
abbrev Byte := BitVec 8

/-- Eight words held together: a chaining value `H[0..7]`, the snapshot `SH[0..7]`, `DIGEST0..7` (R5). -/
structure Words8 where
  (w0 w1 w2 w3 w4 w5 w6 w7 : Word)
  deriving DecidableEq, Repr

/-- The working variables `a .. h` of a compression (43_compression.md R180). -/
structure Working where
  (a b c d e f g h : Word)
  deriving DecidableEq, Repr

end Sys2Proof
end

