-- ==== Sys2Proof/Syntax.lean ====
section
/-! DEFINITION. The commands of the block, one constructor per row of the opcode table, and the causes of its one
error kind. -/

namespace Sys2Proof

/-- A command (30_encoding.md R81, R89). `nb` is the NB field of the word (R82). -/
inductive Instr where
  /-- `NOP` (R111). -/
  | nop
  /-- `INIT` (R112). -/
  | init
  /-- `UPDATE nb` (R114). -/
  | update (nb : BitVec 3)
  /-- `DIGEST` (R116). -/
  | digest
  deriving DecidableEq, Repr

/-- The causes of the error kind InvalidInput (60_exceptions.md R202). -/
inductive InvalidInput where
  /-- Code 1: UPDATE with NB in 5..7. -/
  | badNb
  /-- Code 2: OP in 0x4..0xF. -/
  | badOp
  /-- Code 3: bits 31:7 not zero, or NB not zero with NOP, INIT or DIGEST. -/
  | rsvdBits
  /-- Code 4: any CMD write while STATUS.BUSY = 1. -/
  | busy
  deriving DecidableEq, Repr

end Sys2Proof
end

