-- ==== Sys2Proof/Config.lean ====
section
/-! DEFINITION. The fixed parameters of the block (00_scope.md R5, R6) and the two parameters a model takes as
arguments: the window addresses, one per engine, and with them the number of engines. -/

namespace Sys2Proof.Config

/-- Bytes in a block of the hash (R5). -/
abbrev blockBytes : Nat := 64

/-- Rounds of one compression, which is the number of words of K (R5). -/
abbrev rounds : Nat := 64

/-- The most bytes one UPDATE command takes (R6, decision D9). -/
abbrev maxUpdateBytes : Nat := 4

/-- Size in bytes of one engine's register window (R6, R31). -/
abbrev windowBytes : Nat := 0x40

/-- `BASE` of each engine and, as the length of the list, `N_INSTANCES` (R6: both OPEN, model arguments). -/
structure Parameters where
  bases : List Nat
  deriving DecidableEq, Repr

/-- R6, R68: at least one engine, every `BASE` a multiple of 0x40, no two windows overlapping. -/
def Parameters.wf (p : Parameters) : Bool :=
  decide (1 ≤ p.bases.length) && p.bases.all (fun b => decide (b % windowBytes = 0)) && decide p.bases.Nodup

end Sys2Proof.Config
end

