-- ==== Sys2Proof/WellFormed.lean ====
section
/-! DEFINITION. Which terms of `Instr` are commands of the block. -/

namespace Sys2Proof

/-- R82: for UPDATE, NB names a byte sequence of DATA_IN only when it is 0..4. The other commands have no operand. -/
def Instr.wf : Instr → Bool
  | .nop => true
  | .init => true
  | .update nb => decide (nb.toNat ≤ Config.maxUpdateBytes)
  | .digest => true

end Sys2Proof
end

