-- ==== Sys2Proof/Decode.lean ====
section
/-! DEFINITION. Decoding and encoding of command words (30_encoding.md). A command word is a 32-bit value written in
one access; its fields are positions in the value, not bytes (R67, R80). -/

namespace Sys2Proof

/-- OP, bits 3:0 (R80). -/
def opField (v : Word) : BitVec 4 := v.extractLsb' 0 4

/-- NB, bits 6:4 (R80, R82). -/
def nbField (v : Word) : BitVec 3 := v.extractLsb' 4 3

/-- RSVD, bits 31:7 (R80, R83). -/
def rsvdField (v : Word) : BitVec 25 := v.extractLsb' 7 25

/-- The command an assigned OP names, NB given; R81. A reserved OP names none. -/
def opcodeMap (op : BitVec 4) (nb : BitVec 3) : Option Instr :=
  if op = 0x0#4 then some .nop
  else if op = 0x1#4 then some .init
  else if op = 0x2#4 then some (.update nb)
  else if op = 0x3#4 then some .digest
  else none

/-- The test of NB that an opcode makes after RSVD (R82, R84): UPDATE takes 0..4, the others 0 only. -/
def checkNb (nb : BitVec 3) : Instr → Except InvalidInput Instr
  | .update n => if n.toNat ≤ Config.maxUpdateBytes then .ok (.update n) else .error .badNb
  | .nop => if nb = 0#3 then .ok .nop else .error .rsvdBits
  | .init => if nb = 0#3 then .ok .init else .error .rsvdBits
  | .digest => if nb = 0#3 then .ok .digest else .error .rsvdBits

/-- Decoding of a command word by an engine with no command pending: `decode(v, 0)` of R84, total on all words. -/
def decode (v : Word) : Except InvalidInput Instr :=
  match opcodeMap (opField v) (nbField v) with
  | none => .error .badOp
  | some i => if rsvdField v ≠ 0#25 then .error .rsvdBits else checkNb (nbField v) i

/-- `decode(v, busy)` of R84: BUSY is tested first, then opcode, reserved bits and NB range (R204). -/
def decodeCommand (v : Word) (busy : Bool) : Except InvalidInput Instr :=
  if busy then .error .busy else decode v

/-- STATUS.ERRCODE of a cause (60_exceptions.md R202). -/
def InvalidInput.code : InvalidInput → BitVec 3
  | .badNb => 1
  | .badOp => 2
  | .rsvdBits => 3
  | .busy => 4

/-- The command word of a command (R87, R89). -/
def encode : Instr → Word
  | .nop => 0x00000000#32
  | .init => 0x00000001#32
  | .update nb => (nb.setWidth 32 <<< 4) ||| 0x00000002#32
  | .digest => 0x00000003#32

/-- A row of the opcode table: the words `v` with `v & mask = pattern`. -/
structure OpRow where
  mnemonic : String
  pattern : Word
  mask : Word
  deriving DecidableEq, Repr

/-- opcode_table.json, row by row. -/
def opRows : List OpRow :=
  [⟨"NOP", 0x00000000#32, 0xFFFFFFFF#32⟩, ⟨"INIT", 0x00000001#32, 0xFFFFFFFF#32⟩,
   ⟨"UPDATE", 0x00000002#32, 0xFFFFFF8F#32⟩, ⟨"DIGEST", 0x00000003#32, 0xFFFFFFFF#32⟩]

/-- Whether a word matches a row of the table. -/
def OpRow.matchesWord (r : OpRow) (v : Word) : Bool := v &&& r.mask == r.pattern

/-- What the decoder reads from a table word of `nbits` bits: bits above `nbits` are 0, and a word that does not fit
one 32-bit command word is none (R88). -/
def decodeTableWord (nbits w : Nat) : Option Instr :=
  let v := w % 2 ^ nbits
  if v < 2 ^ 32 then
    match decode (BitVec.ofNat 32 v) with
    | .ok i => some i
    | .error _ => none
  else none

end Sys2Proof
end

