-- ==== Sys2Proof/Machine/Bytes.lean ====
section
/-! DEFINITION. Byte order (00_scope.md R10, big-endian throughout: 20_memory.md R65) and indexing of eight words. -/

namespace Sys2Proof.Machine

/-- `be32(b0, b1, b2, b3)`: the first byte is the most significant (R10). -/
def be32 (b0 b1 b2 b3 : Byte) : Word := b0 ++ b1 ++ b2 ++ b3

/-- `bytes32(w)`: most significant byte first (R10). -/
def bytes32 (w : Word) : List Byte :=
  [w.extractLsb' 24 8, w.extractLsb' 16 8, w.extractLsb' 8 8, w.extractLsb' 0 8]

/-- `bytes64(v)`: most significant byte first (R10). -/
def bytes64 (v : BitVec 64) : List Byte :=
  [v.extractLsb' 56 8, v.extractLsb' 48 8, v.extractLsb' 40 8, v.extractLsb' 32 8,
   v.extractLsb' 24 8, v.extractLsb' 16 8, v.extractLsb' 8 8, v.extractLsb' 0 8]

/-- Eight zero words. -/
def zero8 : Words8 := ⟨0, 0, 0, 0, 0, 0, 0, 0⟩

/-- The words in index order. -/
def words8List (x : Words8) : List Word := [x.w0, x.w1, x.w2, x.w3, x.w4, x.w5, x.w6, x.w7]

/-- `X[k]` (R11). -/
def word8At (x : Words8) (k : Fin 8) : Word := (words8List x).getD k 0

/-- The 32 digest bytes `bytes32(DIGEST0) ++ … ++ bytes32(DIGEST7)` (10_state.md R42, 42_padding.md R145). -/
def digestBytes (x : Words8) : List Byte := (words8List x).flatMap bytes32

end Sys2Proof.Machine
end

