-- ==== Sys2Proof/Machine/State.lean ====
section
/-! DEFINITION. All the state of one engine (10_state.md), the steps its surroundings can make, and how a step can stop.
Plain data. -/

namespace Sys2Proof.Machine

/-- STATUS.PHASE (R39, R152). -/
inductive Phase where
  | empty
  | accumulating
  | finalizing
  /-- Entered and left inside the completion of DIGEST, so never read (R152). -/
  | output
  deriving DecidableEq, Repr

/-- An accepted command record of `PEND` (R28). -/
inductive Pending where
  | nop
  | init
  /-- The bytes latched from DATA_IN at acceptance, oldest first (R114). -/
  | update (bytes : List Byte)
  | digest
  deriving DecidableEq, Repr

/-- The Hasher: chaining value, buffer and total length (R22, R24, R25). `buf` has length BUFLEN; there is no storage
past it (R24, U14). -/
structure Hasher where
  h : Words8
  buf : List Byte
  totalLen : BitVec 64
  deriving DecidableEq, Repr

/-- The rows of the reference sequencer's table (42_padding.md R150). -/
inductive SeqState where
  | idle
  | append
  | load
  | round (t : Fin 64)
  | add
  | shift
  | initLoad
  | snap
  | pad2
  | out
  | done
  deriving DecidableEq, Repr

/-- The hidden state of a pending command (R30): nothing the host can read depends on it. -/
structure Sequencer where
  /-- The row, with the round counter t. -/
  ctl : SeqState
  /-- Working variables a..h. -/
  v : Working
  /-- The message schedule as a rolling window, `R[0]` oldest (43_compression.md R178). -/
  window : List Word
  /-- The snapshot `SH[0..7]`. -/
  sh : Words8
  /-- The padded block being compressed. -/
  blk : List Byte
  /-- Whether `blk` is padded block 2 of 2. -/
  second : Bool
  /-- The values of H, BUF and TOTAL_LEN being prepared; the registers themselves change only at completion (R150). -/
  live : Hasher
  /-- The values of DIGEST0..7 being prepared. -/
  digest : Words8
  deriving DecidableEq, Repr

/-- The width of a bus access. Only 32 bits has a meaning (20_memory.md R60, R61). -/
inductive Width where
  | w8
  | w16
  | w32
  deriving DecidableEq, Repr

/-- A host access at a byte offset from `BASE` (R60). -/
inductive Access where
  | read (w : Width) (off : Nat)
  | write (w : Width) (off : Nat) (v : Word)
  deriving DecidableEq, Repr

/-- One step of an agent: a host access, the engine's completion of the pending command, one internal step of the
engine's sequencer, or the reset input (20_memory.md R70, 70_reset_and_hazards.md R230). -/
inductive Event where
  | access (a : Access)
  | complete
  | cycle
  | reset
  deriving DecidableEq, Repr

/-- The block's boundary, the model's own: the steps to come, in order, and the value the last read gave the host
(logs 2 and 3). -/
structure HostPort where
  inputs : List Event
  rdata : Word
  deriving DecidableEq, Repr

/-- The registers of the window (R31). -/
inductive Reg where
  | cmd
  | status
  | dataIn
  | lenLo
  | lenHi
  | digest (k : Fin 8)
  | reserved
  deriving DecidableEq, Repr

/-- The state of one engine (R20 to R30, R45), and its boundary. -/
structure State where
  /-- `H`, `BUF`, `TOTAL_LEN`. -/
  live : Hasher
  /-- `PEND`; STATUS.BUSY is 1 exactly when it is not none (R34). -/
  pend : Option Pending
  /-- `DATA_IN` (R40). -/
  dataIn : Word
  /-- `DIGEST0..7` (R42). -/
  digest : Words8
  /-- STATUS.DVALID (R35). -/
  dvalid : Bool
  /-- STATUS.ERR (R36). -/
  err : Bool
  /-- STATUS.ERRCODE (R37). -/
  errcode : BitVec 3
  /-- STATUS.PHASE (R39). -/
  phase : Phase
  /-- Hidden state (R30). -/
  seq : Sequencer
  /-- The model's own: the boundary. -/
  port : HostPort
  deriving DecidableEq, Repr

/-- The block has no fault that stops it: its one exception, InvalidInput, is taken and the machine goes on
(60_exceptions.md R200, R203, R205; log 13). No one raises a fault; safe. -/
inductive Fault where
  deriving DecidableEq, Repr

/-- Why a step is refused. -/
inductive Refusal where
  /-- Raised by `exec` for a command that has no meaning yet; no arm does so. Safe. -/
  | notModelled (mnemonic : String)
  /-- Raised by a host access of 8 or 16 bits, which has no meaning in the spec (20_memory.md R61, U1). Safe. -/
  | subWordAccess
  /-- Raised by a host access at an offset that is not a multiple of 4 (R61, U2). Safe. -/
  | misalignedAccess
  /-- Raised by a host access at offset 0x40 or above, or at an address in no engine's window (R61, U3). Safe. -/
  | outsideWindow
  deriving DecidableEq, Repr

/-- A Hasher just created with no initial bytes (R45, 41_commands.md R112). -/
def Hasher.created : Hasher := ⟨iv, [], 0⟩

/-- The hidden state after reset: the sequencer in IDLE (R231), the registers at values of the model (DESIGN CHOICE,
log 4: the spec says unspecified and unobservable). -/
def Sequencer.reset : Sequencer :=
  { ctl := .idle, v := ⟨0, 0, 0, 0, 0, 0, 0, 0⟩, window := [], sh := zero8, blk := [], second := false,
    live := ⟨zero8, [], 0⟩, digest := zero8 }

/-- The state right after reset (R45, R230). Nothing is waiting at the boundary. -/
def State.reset : State :=
  { live := Hasher.created, pend := none, dataIn := 0, digest := zero8, dvalid := false, err := false, errcode := 0,
    phase := .empty, seq := Sequencer.reset, port := ⟨[], 0⟩ }

end Sys2Proof.Machine
end

