-- ==== Sys2Proof/Machine/Ops.lean ====
section
/-! DEFINITION. The named operations over the registers: BUSY, taking the exception InvalidInput and acknowledging it,
accepting a command and retiring it. -/

namespace Sys2Proof.Machine

/-- STATUS.BUSY (10_state.md R34). -/
def State.busy (s : State) : Bool := s.pend.isSome

/-- The state with the given steps to come. -/
def State.withInputs (s : State) (es : List Event) : State := { s with port := { s.port with inputs := es } }

/-- The state with the value a read gave the host (20_memory.md R62). -/
def State.withReadData (s : State) (v : Word) : State := { s with port := { s.port with rdata := v } }

/-- TAKING THE EXCEPTION: `raise InvalidInput(c)` (60_exceptions.md R203). The first cause is kept; nothing is saved,
no mode changes, nothing else is written (R206). -/
def takeInvalidInput (c : InvalidInput) (s : State) : State :=
  if s.err then s else { s with err := true, errcode := c.code }

/-- THE RETURN from it: the host's acknowledgement by a STATUS write with bit 2 set (R207, 10_state.md R33). -/
def acknowledgeError (s : State) : State := { s with err := false, errcode := 0 }

/-- The row of the sequencer's table that follows IDLE for a command (42_padding.md R150). -/
def firstRow : Pending → SeqState
  | .nop => .done
  | .init => .initLoad
  | .update _ => .append
  | .digest => .snap

/-- Acceptance: `PEND <- c` (41_commands.md R110); the sequencer leaves IDLE (R150). -/
def accept (p : Pending) (s : State) : State :=
  { s with pend := some p, seq := { s.seq with ctl := firstRow p } }

/-- A command's own test of BUSY: code 4 while another is pending (R110, R111 to R116 "Errors"), else its acceptance. -/
def submit (acceptance : State → State) (s : State) : State :=
  if s.busy then takeInvalidInput .busy s else acceptance s

/-- The end of a completion: `PEND <- none`, the sequencer back in IDLE (R110, R150 DONE). The other hidden registers
keep what they hold (log 5). -/
def retire (s : State) : State := { s with pend := none, seq := { s.seq with ctl := .idle } }

end Sys2Proof.Machine
end

