-- ==== Sys2Proof/Machine/Flags.lean ====
section
/-! DEFINITION. The status fields: how STATUS reads, and the changes of DVALID and PHASE (10_state.md R33 to R39,
42_padding.md R152). -/

namespace Sys2Proof.Machine

/-- A status bit as a word. -/
def bitWord (b : Bool) : Word := if b then 1 else 0

/-- The value of PHASE in STATUS bits 9:8 (R39). -/
def phaseCode : Phase → BitVec 2
  | .empty => 0
  | .accumulating => 1
  | .finalizing => 2
  | .output => 3

/-- STATUS.BUFLEN, bits 21:16 (R38). -/
def bufLen (s : State) : BitVec 6 := BitVec.ofNat 6 s.live.buf.length

/-- What STATUS reads (R33). -/
def statusWord (s : State) : Word :=
  ((bufLen s).setWidth 32 <<< 16) ||| ((phaseCode s.phase).setWidth 32 <<< 8) ||| (s.errcode.setWidth 32 <<< 4) |||
    (bitWord s.err <<< 2) ||| (bitWord s.dvalid <<< 1) ||| bitWord s.busy

/-- PHASE moves (R152). -/
def enterPhase (p : Phase) (s : State) : State := { s with phase := p }

/-- The acceptance of DIGEST: DVALID <- 0 and PHASE <- FINALIZING (R116). -/
def beginFinalizing (s : State) : State := enterPhase .finalizing { s with dvalid := false }

/-- DVALID after the completion of an UPDATE of the bytes `d`: cleared when there is at least one (R35, R114). -/
def dvalidAfterUpdate (d : List Byte) (s : State) : Bool := if 1 ≤ d.length then false else s.dvalid

end Sys2Proof.Machine
end

