-- ==== Sys2Proof/Machine/Operands.lean ====
section
/-! DEFINITION. The one operand form: the first nb bytes of DATA_IN, most significant first (20_memory.md R66,
30_encoding.md R85). -/

namespace Sys2Proof.Machine

/-- The bytes an UPDATE nb takes, as DATA_IN holds them now (R66, R114). -/
def latchedBytes (nb : BitVec 3) (s : State) : List Byte := (bytes32 s.dataIn).take nb.toNat

end Sys2Proof.Machine
end

