-- ==== Sys2Proof/Machine/Commands.lean ====
section
/-! DEFINITION. The meaning of each command at the CMD write that submits it (41_commands.md R110 to R116, "At
acceptance" and "Errors"). What each does when the engine completes it stands in Completion.lean (log 1). -/

namespace Sys2Proof.Machine

/-- NOP (R111): `PEND <- NOP`. -/
def execNop (s : State) : Host.Outcome State Fault Refusal :=
  .next (submit (accept .nop) s)

/-- INIT (R112): `PEND <- INIT`. -/
def execInit (s : State) : Host.Outcome State Fault Refusal :=
  .next (submit (accept .init) s)

/-- UPDATE nb (R114): `PEND <- UPDATE(d)`, `d` latched now; NB 5..7 names no byte sequence, code 1 (R84, R201). -/
def execUpdate (nb : BitVec 3) (s : State) : Host.Outcome State Fault Refusal :=
  .next (submit (fun s =>
    if nb.toNat ≤ Config.maxUpdateBytes then accept (.update (latchedBytes nb s)) s
    else takeInvalidInput .badNb s) s)

/-- DIGEST (R116): `PEND <- DIGEST; DVALID <- 0; PHASE <- FINALIZING`. -/
def execDigest (s : State) : Host.Outcome State Fault Refusal :=
  .next (submit (fun s => beginFinalizing (accept .digest s)) s)

end Sys2Proof.Machine
end

