-- ==== Sys2Proof/Machine/Bus.lean ====
section
/-! DEFINITION. The register window and host accesses to it (10_state.md R31 to R43, 20_memory.md R60 to R63). -/

namespace Sys2Proof.Machine

/-- The register at a legal offset (R31). -/
def regAt (off : Nat) : Reg :=
  if off = 0x00 then .cmd
  else if off = 0x04 then .status
  else if off = 0x08 then .dataIn
  else if off = 0x10 then .lenLo
  else if off = 0x14 then .lenHi
  else if 0x20 ≤ off then .digest (Fin.ofNat 8 ((off - 0x20) / 4))
  else .reserved

/-- The value a register reads (R32 to R43). -/
def readReg (s : State) : Reg → Word
  | .cmd => 0
  | .status => statusWord s
  | .dataIn => s.dataIn
  | .lenLo => s.live.totalLen.extractLsb' 0 32
  | .lenHi => s.live.totalLen.extractLsb' 32 32
  | .digest k => word8At s.digest k
  | .reserved => 0

/-- A write to CMD: the word is decoded at once; a rejected one takes InvalidInput, an accepted one is submitted (R110). -/
def writeCmd (v : Word) (s : State) : Host.Outcome State Fault Refusal :=
  match decodeCommand v s.busy with
  | .error c => .next (takeInvalidInput c s)
  | .ok i => exec i s

/-- A write to STATUS: bit 2 set acknowledges the error; every other bit is ignored (R33). -/
def writeStatus (v : Word) (s : State) : State := if v.getLsbD 2 then acknowledgeError s else s

/-- A write of the register window; read-only and reserved registers ignore it (R43, R63). -/
def writeReg (v : Word) (s : State) : Reg → Host.Outcome State Fault Refusal
  | .cmd => writeCmd v s
  | .status => .next (writeStatus v s)
  | .dataIn => .next { s with dataIn := v }
  | .lenLo => .next s
  | .lenHi => .next s
  | .digest _ => .next s
  | .reserved => .next s

/-- Why a width and an offset make no access, if they do not (R61; the order of the three names is log 6's). -/
def accessProblem (w : Width) (off : Nat) : Option Refusal :=
  if w ≠ .w32 then some .subWordAccess
  else if off % 4 ≠ 0 then some .misalignedAccess
  else if Config.windowBytes ≤ off then some .outsideWindow
  else none

/-- One host access (R60 to R63). -/
def hostAccess (a : Access) (s : State) : Host.Outcome State Fault Refusal :=
  match a with
  | .read w off =>
    match accessProblem w off with
    | some r => .refused r
    | none => .next (s.withReadData (readReg s (regAt off)))
  | .write w off v =>
    match accessProblem w off with
    | some r => .refused r
    | none => writeReg v s (regAt off)

end Sys2Proof.Machine
end

