-- ==== Sys2Proof/Machine/Datapath.lean ====
section
/-! DEFINITION. The datapath operations of the compression engine (43_compression.md R160 to R170). No operation here
reads a status field or raises an error. -/

namespace Sys2Proof.Machine

/-- `rotr(x, n)`, 0 < n < 32 (R160). -/
def rotr (x : Word) (n : Nat) : Word := (x >>> n) ||| (x <<< (32 - n))

/-- `x >> n`, logical (R161). -/
def shr (x : Word) (n : Nat) : Word := x >>> n

/-- The adder chain `x1 +32 … +32 xn` (R163, R8); carries out of bit 31 are discarded. -/
def add32 (xs : List Word) : Word := xs.foldl (· + ·) 0

/-- `σ0` (R165). -/
def smallSigma0 (x : Word) : Word := rotr x 7 ^^^ rotr x 18 ^^^ shr x 3

/-- `σ1` (R166). -/
def smallSigma1 (x : Word) : Word := rotr x 17 ^^^ rotr x 19 ^^^ shr x 10

/-- `Σ0` (R167). -/
def bigSigma0 (a : Word) : Word := rotr a 2 ^^^ rotr a 13 ^^^ rotr a 22

/-- `Σ1` (R168). -/
def bigSigma1 (e : Word) : Word := rotr e 6 ^^^ rotr e 11 ^^^ rotr e 25

/-- `Ch` (R169). -/
def ch (e f g : Word) : Word := (e &&& f) ^^^ (~~~e &&& g)

/-- `Maj` (R170). -/
def maj (a b c : Word) : Word := (a &&& b) ^^^ (a &&& c) ^^^ (b &&& c)

end Sys2Proof.Machine
end

