-- ==== Sys2Proof/Machine/Compression.lean ====
section
/-! DEFINITION. Message schedule and compression function (43_compression.md R175 to R185). -/

namespace Sys2Proof.Machine

/-- Word i of a block, i in 0..15: `be32(blk[4i], …, blk[4i+3])` (R175). -/
def blockWord (blk : List Byte) (i : Nat) : Word :=
  be32 (blk.getD (4 * i) 0) (blk.getD (4 * i + 1) 0) (blk.getD (4 * i + 2) 0) (blk.getD (4 * i + 3) 0)

/-- `W[0..15]`, the block's own words (R175). -/
def blockWords (blk : List Byte) : List Word := (List.range 16).map (blockWord blk)

/-- The word R176 gives from the words at distances 16, 15, 7 and 2 before it. -/
def scheduleWord (w16 w15 w7 w2 : Word) : Word := add32 [w16, smallSigma0 w15, w7, smallSigma1 w2]

/-- Appends `n` further schedule words to the words so far (R176). -/
def extendSchedule : Nat → List Word → List Word
  | 0, ws => ws
  | n + 1, ws =>
    let i := ws.length
    extendSchedule n
      (ws ++ [scheduleWord (ws.getD (i - 16) 0) (ws.getD (i - 15) 0) (ws.getD (i - 7) 0) (ws.getD (i - 2) 0)])

/-- `W[0..63]` of a block, computed fresh for each block (R175 to R177). -/
def schedule (blk : List Byte) : List Word := extendSchedule 48 (blockWords blk)

/-- `a .. h` from a chaining value (R180). -/
def loadWorking (c : Words8) : Working := ⟨c.w0, c.w1, c.w2, c.w3, c.w4, c.w5, c.w6, c.w7⟩

/-- `temp1` of a round (R181). -/
def temp1 (v : Working) (k w : Word) : Word := add32 [v.h, bigSigma1 v.e, ch v.e v.f v.g, k, w]

/-- `temp2` of a round (R181). -/
def temp2 (v : Working) : Word := add32 [bigSigma0 v.a, maj v.a v.b v.c]

/-- One round with `K[t] = k` and `W[t] = w`: all right-hand sides are read before any variable is written (R181). -/
def shaRound (v : Working) (k w : Word) : Working :=
  ⟨add32 [temp1 v k w, temp2 v], v.a, v.b, v.c, add32 [v.d, temp1 v k w], v.e, v.f, v.g⟩

/-- The rounds t = 0, 1, … over pairs `(K[t], W[t])` in increasing order (R181). -/
def rounds (v : Working) (kw : List (Word × Word)) : Working := kw.foldl (fun v p => shaRound v p.1 p.2) v

/-- The feed-forward (R184). -/
def feedForward (c : Words8) (v : Working) : Words8 :=
  ⟨add32 [c.w0, v.a], add32 [c.w1, v.b], add32 [c.w2, v.c], add32 [c.w3, v.d],
   add32 [c.w4, v.e], add32 [c.w5, v.f], add32 [c.w6, v.g], add32 [c.w7, v.h]⟩

/-- `compress(C, blk)` (R185). -/
def compress (c : Words8) (blk : List Byte) : Words8 :=
  feedForward c (rounds (loadWorking c) (kRom.zip (schedule blk)))

/-- A chaining value compressed with the first `n` 64-byte blocks of a byte sequence, in order. -/
def compressBlocks : Nat → Words8 → List Byte → Words8
  | 0, c, _ => c
  | n + 1, c, bs => compressBlocks n (compress c (bs.take 64)) (bs.drop 64)

end Sys2Proof.Machine
end

