-- ==== Sys2Proof/Machine/Padding.lean ====
section
/-! DEFINITION. Padding and finalization (42_padding.md R140 to R145), and the digest of a whole message
(41_commands.md R117). -/

namespace Sys2Proof.Machine

/-- `z = (55 - L) mod 64`, the zero-fill count of a buffer of L bytes (R140). -/
def zeroFill (l : Nat) : Nat := ((55 - (l : Int)) % 64).toNat

/-- `bytes64((total * 8) mod 2^64)`, the length suffix (R140, R141). -/
def lengthSuffix (total : BitVec 64) : List Byte := bytes64 (total * 8#64)

/-- `pad(buf, total)` (R140). -/
def pad (buf : List Byte) (total : BitVec 64) : List Byte :=
  buf ++ [0x80#8] ++ List.replicate (zeroFill buf.length) 0#8 ++ lengthSuffix total

/-- `finalize(H, buf, total)`: the snapshot chaining value compressed with each padded block (R145). -/
def finalize (h : Words8) (buf : List Byte) (total : BitVec 64) : Words8 :=
  compressBlocks ((pad buf total).length / 64) h (pad buf total)

/-- `H_M`: IV compressed with every complete block of the message (R117, R26(d)). -/
def streamChain (m : List Byte) : Words8 := compressBlocks (m.length / 64) iv m

/-- The bytes of the message after its last complete block (R117, R26(d)). -/
def streamTail (m : List Byte) : List Byte := m.drop (64 * (m.length / 64))

/-- `SHA256(M)` (R117). -/
def sha256 (m : List Byte) : Words8 :=
  finalize (streamChain m) (streamTail m) (BitVec.ofNat 64 m.length)

end Sys2Proof.Machine
end

