-- ==== Sys2Proof/Machine/Completion.lean ====
section
/-! DEFINITION. What each command does when the engine completes it (41_commands.md R111 to R116, "At completion"). -/

namespace Sys2Proof.Machine

/-- NOP: no state changes (R111). -/
def completeNop (s : State) : State := s

/-- INIT: a new message (R112). -/
def completeInit (s : State) : State :=
  enterPhase .accumulating { s with live := ⟨iv, [], 0⟩, digest := zero8, dvalid := false }

/-- The Hasher after absorbing the bytes `d`: append, count, and compress each complete block from the front; the loop
of R114 runs `len(S) / 64` times. -/
def absorb (d : List Byte) (x : Hasher) : Hasher :=
  let stream := x.buf ++ d
  let blocks := stream.length / 64
  { h := compressBlocks blocks x.h stream
    buf := stream.drop (64 * blocks)
    totalLen := x.totalLen + BitVec.ofNat 64 d.length }

/-- UPDATE: absorb the latched bytes (R114). -/
def completeUpdate (d : List Byte) (s : State) : State :=
  enterPhase .accumulating { s with live := absorb d s.live, dvalid := dvalidAfterUpdate d s }

/-- DIGEST: the result of a snapshot; H, BUF and TOTAL_LEN are not written (R116, R146). OUTPUT is entered and left in
this one step (R152). -/
def completeDigest (s : State) : State :=
  enterPhase .accumulating
    (enterPhase .output { s with digest := finalize s.live.h s.live.buf s.live.totalLen, dvalid := true })

/-- The completion step of a pending command (R110): its effect on the state as it is now, then `PEND <- none`. -/
def complete (p : Pending) (s : State) : State :=
  match p with
  | .nop => retire (completeNop s)
  | .init => retire (completeInit s)
  | .update d => retire (completeUpdate d s)
  | .digest => retire (completeDigest s)

/-- The engine agent's step: enabled exactly when a command is pending (R110); with none, nothing is done (R215, log 7). -/
def engineStep (s : State) : State :=
  match s.pend with
  | none => s
  | some p => complete p s

end Sys2Proof.Machine
end

