-- ==== Sys2Proof/Machine/Sequencer.lean ====
section
/-! DEFINITION. The reference sequencer (42_padding.md R150, R151), its rolling schedule window (43_compression.md R178)
and its latencies (70_reset_and_hazards.md R246). It works on hidden state alone (10_state.md R30); the effect of a
command is Completion.lean's (log 20). -/

namespace Sys2Proof.Machine

/-- The bytes the pending UPDATE latched. -/
def pendingBytes : Pending → List Byte
  | .update d => d
  | .nop => []
  | .init => []
  | .digest => []

/-- Whether the pending command is DIGEST, whose blocks are compressed into `SH`. -/
def pendingIsDigest : Pending → Bool
  | .digest => true
  | .nop => false
  | .init => false
  | .update _ => false

/-- `new = R[0] +32 σ0(R[1]) +32 R[9] +32 σ1(R[14])` (R178). -/
def windowNew (r : List Word) : Word := scheduleWord (r.getD 0 0) (r.getD 1 0) (r.getD 9 0) (r.getD 14 0)

/-- `W[t]` as the window supplies it at round t (R178). -/
def windowWord (t : Nat) (r : List Word) : Word := if t < 16 then r.getD t 0 else windowNew r

/-- The window after round t: unmoved while it supplies the block's own words, then shifted by one (R178). -/
def windowShift (t : Nat) (r : List Word) : List Word := if t < 16 then r else r.drop 1 ++ [windowNew r]

/-- The row after ROUND(t). -/
def afterRound (t : Fin 64) : SeqState :=
  if h : t.val + 1 < 64 then .round ⟨t.val + 1, h⟩ else .add

/-- Row APPEND: the latched bytes appended and counted. -/
def seqAppend (p : Pending) (x : Hasher) (q : Sequencer) : Sequencer :=
  let buf := x.buf ++ pendingBytes p
  { q with
    live := { h := x.h, buf := buf, totalLen := x.totalLen + BitVec.ofNat 64 (pendingBytes p).length }
    ctl := if 64 ≤ buf.length then .load else .done }

/-- Row LOAD: the block's 16 words into the window, a..h from `H` or `SH`. -/
def seqLoad (p : Pending) (q : Sequencer) : Sequencer :=
  if pendingIsDigest p then { q with window := blockWords q.blk, v := loadWorking q.sh, ctl := .round 0 }
  else { q with window := blockWords q.live.buf, v := loadWorking q.live.h, ctl := .round 0 }

/-- Row ROUND(t): one round with `K[t]` and the window's `W[t]`. -/
def seqRound (t : Fin 64) (q : Sequencer) : Sequencer :=
  { q with
    v := shaRound q.v (kAt t.val) (windowWord t.val q.window)
    window := windowShift t.val q.window
    ctl := afterRound t }

/-- Row ADD: the feed-forward into `H` (UPDATE) or `SH` (DIGEST); PAD2 after block 1 of 2. -/
def seqAdd (p : Pending) (x : Hasher) (q : Sequencer) : Sequencer :=
  if pendingIsDigest p then
    { q with
      sh := feedForward q.sh q.v
      ctl := if 56 ≤ x.buf.length ∧ q.second = false then .pad2 else .out }
  else { q with live := { q.live with h := feedForward q.live.h q.v }, ctl := .shift }

/-- One step of the sequencer, by the row it is in (R150). Row DONE waits for the completion step, which is where the
results reach the host's registers; with no command pending nothing moves (IDLE). -/
def seqStep (s : State) : Sequencer :=
  match s.pend with
  | none => s.seq
  | some p =>
    match s.seq.ctl with
    | .idle => { s.seq with ctl := firstRow p }
    | .append => seqAppend p s.live s.seq
    | .load => seqLoad p s.seq
    | .round t => seqRound t s.seq
    | .add => seqAdd p s.live s.seq
    | .shift => { s.seq with live := { s.seq.live with buf := s.seq.live.buf.drop 64 }, ctl := .done }
    | .initLoad => { s.seq with live := ⟨iv, [], 0⟩, digest := zero8, ctl := .done }
    | .snap => { s.seq with sh := s.live.h, blk := (pad s.live.buf s.live.totalLen).take 64, second := false, ctl := .load }
    | .pad2 => { s.seq with blk := (pad s.live.buf s.live.totalLen).drop 64, second := true, ctl := .load }
    | .out => { s.seq with digest := s.seq.sh, ctl := .done }
    | .done => s.seq

/-- One internal step of the engine: hidden state alone. -/
def cycle (s : State) : State := { s with seq := seqStep s }

/-- `n` internal steps. -/
def cycles : Nat → State → State
  | 0, s => s
  | n + 1, s => cycles n (cycle s)

/-- The reference latency of a command accepted with BUFLEN = `l`: the rows from acceptance to completion, DONE among
them (R246). -/
def refLatency (l : Nat) : Pending → Nat
  | .nop => 1
  | .init => 2
  | .update d => if 64 ≤ l + d.length then 69 else 2
  | .digest => if l ≤ 55 then 69 else 136

end Sys2Proof.Machine
end

