-- ==== Sys2Proof/Machine/Events.lean ====
section
/-! DEFINITION. What each step of an agent does (20_memory.md R70, 70_reset_and_hazards.md R230). -/

namespace Sys2Proof.Machine

/-- The reset input: every piece of the block's state takes its reset value; what the host goes on to do, and the value
it read last, are not the block's (R230, R45; logs 3 and 17). -/
def applyReset (s : State) : State := { State.reset with port := s.port }

/-- One step of the agent that moves. -/
def runEvent (e : Event) (s : State) : Host.Outcome State Fault Refusal :=
  match e with
  | .access a => hostAccess a s
  | .complete => .next (engineStep s)
  | .cycle => .next (cycle s)
  | .reset => .next (applyReset s)

/-- The machine's step: the first of the steps to come; once there is none, the engine completes what is pending (weak
fairness, R245; log 2). -/
def nextStep (s : State) : Host.Outcome State Fault Refusal :=
  match s.port.inputs with
  | [] => .next (engineStep s)
  | e :: rest => runEvent e (s.withInputs rest)

/-- A write of the command word `w` (its low `nbits` bits) to CMD. -/
def commandWrite (nbits w : Nat) : Event := .access (.write .w32 0x00 (BitVec.ofNat 32 (w % 2 ^ nbits)))

end Sys2Proof.Machine
end

