-- ==== Sys2Proof/Machine/Step.lean ====
section
/-! DEFINITION. The step function of the machine. -/

namespace Sys2Proof.Machine

/-- One step (Events.lean). -/
def step (s : State) : Host.Outcome State Fault Refusal := nextStep s

/-- `s` with the write of the command word `w` to CMD as the very next step: the block fetches nothing, its commands come
from CMD writes (10_state.md R21; log 12). -/
def State.withFetchWord (s : State) (nbits w : Nat) : State := s.withInputs (commandWrite nbits w :: s.port.inputs)

end Sys2Proof.Machine
end

