-- ==== Sys2Proof/Machine/HostProgram.lean ====
section
/-! DEFINITION. Host programs (30_encoding.md R90) and the pseudo-instructions (R91). The statements are the host's; the
block sees only the reads and writes. -/

namespace Sys2Proof.Machine

/-- A statement of a host program (R90); labels are positions of statements (log 16). Values and masks are 32-bit words:
DESIGN CHOICE, R90 gives the host's variables no width (log 22). -/
inductive HostStmt where
  /-- `WR REG, value`. -/
  | wr (off : Nat) (v : Word)
  /-- `RD REG -> rN`. -/
  | rd (off : Nat) (n : Nat)
  /-- `BNZ rN, mask, label`. -/
  | bnz (n : Nat) (mask : Word) (label : Nat)
  /-- `BZ rN, mask, label`. -/
  | bz (n : Nat) (mask : Word) (label : Nat)
  /-- `SUB rN, imm`. -/
  | sub (n : Nat) (imm : Word)
  /-- `LI rN, imm`. -/
  | li (n : Nat) (imm : Word)
  /-- `J label`. -/
  | j (label : Nat)
  deriving DecidableEq, Repr

/-- `C mnemonic`: `WR CMD, encoding` (R90). -/
def cmdStmt (i : Instr) : HostStmt := .wr 0x00 (encode i)

/-- The host-local variable `rp` of POLL (R91); `r0`, `r1`, … are the others. -/
def rp : Nat := 1000

/-- `POLL` at position `at` (R91). -/
def poll (pos : Nat) : List HostStmt := [.rd 0x04 rp, .bnz rp 0x1#32 pos]

/-- `CLRERR` (R91). -/
def clrErr : List HostStmt := [.wr 0x04 0x00000004#32]

/-- The statements of ABSORB for one group of 1 to 4 bytes `g`, padded on the right with zero bytes (R91). -/
def absorbGroup (pos : Nat) (g : List Byte) : List HostStmt :=
  [.wr 0x08 (be32 (g.getD 0 0) (g.getD 1 0) (g.getD 2 0) (g.getD 3 0)), cmdStmt (.update (BitVec.ofNat 3 g.length))] ++
    poll (pos + 2)

/-- `ABSORB s` at position `pos`: groups of 4 bytes in order, the last of 1 to 4; empty for no bytes (R91). -/
def absorbStmts (pos : Nat) : List Byte → List HostStmt
  | [] => []
  | [b0] => absorbGroup pos [b0]
  | [b0, b1] => absorbGroup pos [b0, b1]
  | [b0, b1, b2] => absorbGroup pos [b0, b1, b2]
  | b0 :: b1 :: b2 :: b3 :: rest => absorbGroup pos [b0, b1, b2, b3] ++ absorbStmts (pos + 4) rest

/-- `CREATE s` at position `pos` (R91, R118). -/
def createStmts (pos : Nat) (s : List Byte) : List HostStmt :=
  poll pos ++ [cmdStmt .init] ++ poll (pos + 3) ++ absorbStmts (pos + 5) s

/-- `HASH s -> r0..r7` at position `pos` (R91). -/
def hashStmts (pos : Nat) (s : List Byte) : List HostStmt :=
  let created := createStmts pos s
  created ++ [cmdStmt .digest] ++ poll (pos + created.length + 1) ++
    [.rd 0x20 0, .rd 0x24 1, .rd 0x28 2, .rd 0x2C 3, .rd 0x30 4, .rd 0x34 5, .rd 0x38 6, .rd 0x3C 7]

/-- A host agent: its program, the next statement, its local variables (32-bit words, log 22), the newest binding first. -/
structure HostAgent where
  prog : List HostStmt
  pos : Nat
  vars : List (Nat × Word)
  deriving DecidableEq, Repr

/-- A local variable; one never written reads 0 (log 16). -/
def hostVar (h : HostAgent) (n : Nat) : Word := (h.vars.lookup n).getD 0

/-- A host and its engine (00_scope.md R12). -/
structure System where
  agent : HostAgent
  block : State
  deriving DecidableEq, Repr

/-- Which agent moves next. -/
inductive Turn where
  | host
  | engine
  | cycle
  | reset
  deriving DecidableEq, Repr

/-- The host goes on at the next statement, its access (if it made one) done by the engine's machine. -/
def hostAfter (e : Event) (agent : State → HostAgent) (y : System) : Host.Outcome System Fault Refusal :=
  match step (y.block.withInputs (e :: y.block.port.inputs)) with
  | .next b => .next ⟨agent b, b⟩
  | .fault r => .fault r
  | .refused r => .refused r

/-- The host at the next statement. -/
def advance (h : HostAgent) : HostAgent := { h with pos := h.pos + 1 }

/-- The host at statement `l`. -/
def jumpTo (l : Nat) (h : HostAgent) : HostAgent := { h with pos := l }

/-- `rN <- v`, and on to the next statement. -/
def assign (n : Nat) (v : Word) (h : HostAgent) : HostAgent := { advance h with vars := (n, v) :: h.vars }

/-- A branch: to `l` when taken, else on to the next statement. -/
def branch (taken : Bool) (l : Nat) (h : HostAgent) : HostAgent := if taken then jumpTo l h else advance h

/-- One statement of the host (R90). A program that has ended does nothing more (log 16). SUB wraps modulo 2^32: DESIGN
CHOICE, R90 says only `rN <- rN - imm` (log 22). -/
def hostStep (y : System) : Host.Outcome System Fault Refusal :=
  match y.agent.prog[y.agent.pos]? with
  | none => .next y
  | some (.wr off v) => hostAfter (.access (.write .w32 off v)) (fun _ => advance y.agent) y
  | some (.rd off n) => hostAfter (.access (.read .w32 off)) (fun b => assign n b.port.rdata y.agent) y
  | some (.bnz n mask l) => .next { y with agent := branch (hostVar y.agent n &&& mask != 0) l y.agent }
  | some (.bz n mask l) => .next { y with agent := branch (hostVar y.agent n &&& mask == 0) l y.agent }
  | some (.sub n imm) => .next { y with agent := assign n (hostVar y.agent n - imm) y.agent }
  | some (.li n imm) => .next { y with agent := assign n imm y.agent }
  | some (.j l) => .next { y with agent := jumpTo l y.agent }

/-- One step of the system: the agent whose turn it is (20_memory.md R70). -/
def systemStep (t : Turn) (y : System) : Host.Outcome System Fault Refusal :=
  match t with
  | .host => hostStep y
  | .engine => hostAfter .complete (fun _ => y.agent) y
  | .cycle => hostAfter .cycle (fun _ => y.agent) y
  | .reset => hostAfter .reset (fun _ => y.agent) y

end Sys2Proof.Machine
end

