-- ==== Sys2Proof/Machine/Platform.lean ====
section
/-! DEFINITION. Several engines on one platform (60_exceptions.md R213, 20_memory.md R68, R75): each with its window at its
own `BASE` and its own state, the ROM in common. -/

namespace Sys2Proof.Machine

/-- One engine at its window address. -/
structure Engine where
  base : Nat
  block : State
  deriving DecidableEq, Repr

/-- The engines of a platform (`N_INSTANCES` of them, R6). -/
abbrev Platform := List Engine

/-- A step on a platform: a host access at a host address, a step of engine `i` itself, or the reset input. -/
inductive PlatformEvent where
  | read (w : Width) (addr : Nat)
  | write (w : Width) (addr : Nat) (v : Word)
  | complete (i : Nat)
  | cycle (i : Nat)
  | reset
  deriving DecidableEq, Repr

/-- All engines right after reset; they start together (R213). -/
def platformReset (p : Config.Parameters) : Platform := p.bases.map (fun b => ⟨b, State.reset⟩)

/-- Whether a host address lies in an engine's window (R31, R68). -/
def inWindow (g : Engine) (addr : Nat) : Bool := decide (g.base ≤ addr) && decide (addr < g.base + Config.windowBytes)

/-- One engine's machine takes one event. -/
def engineEvent (e : Event) (g : Engine) : Host.Outcome Engine Fault Refusal :=
  match step (g.block.withInputs (e :: g.block.port.inputs)) with
  | .next b => .next { g with block := b }
  | .fault r => .fault r
  | .refused r => .refused r

/-- Puts an engine's outcome in front of the engines that follow it. -/
def consEngine (gs : Platform) : Host.Outcome Engine Fault Refusal → Host.Outcome Platform Fault Refusal
  | .next g => .next (g :: gs)
  | .fault r => .fault r
  | .refused r => .refused r

/-- Keeps an engine in front of an outcome of the engines that follow it. -/
def keepEngine (g : Engine) : Host.Outcome Platform Fault Refusal → Host.Outcome Platform Fault Refusal
  | .next gs => .next (g :: gs)
  | .fault r => .fault r
  | .refused r => .refused r

/-- A host access goes to the engine whose window holds the address, at the offset within it; an address in no window is
not the block's (R68, U3). -/
def routeAccess (addr : Nat) (access : Nat → Access) : Platform → Host.Outcome Platform Fault Refusal
  | [] => .refused .outsideWindow
  | g :: gs =>
    if inWindow g addr then consEngine gs (engineEvent (.access (access (addr - g.base))) g)
    else keepEngine g (routeAccess addr access gs)

/-- An event of engine `i`; there being no such engine, nothing moves. -/
def engineAt (e : Event) : Nat → Platform → Host.Outcome Platform Fault Refusal
  | _, [] => .next []
  | 0, g :: gs => consEngine gs (engineEvent e g)
  | i + 1, g :: gs => keepEngine g (engineAt e i gs)

/-- Reset reaches every engine (R213, R230). -/
def resetAll (gs : Platform) : Host.Outcome Platform Fault Refusal :=
  .next (gs.map (fun g => { g with block := applyReset g.block }))

/-- One step of the platform. -/
def platformStep (e : PlatformEvent) (p : Platform) : Host.Outcome Platform Fault Refusal :=
  match e with
  | .read w addr => routeAccess addr (fun off => .read w off) p
  | .write w addr v => routeAccess addr (fun off => .write w off v) p
  | .complete i => engineAt .complete i p
  | .cycle i => engineAt .cycle i p
  | .reset => resetAll p

end Sys2Proof.Machine
end

