-- ==== Sys2Proof/Safety.lean ====
section
/-! DEFINITION. The terms that statements about safe runs use: the invariant of the machine, the byte stream a state
stands for, legal host accesses, and states that differ in hidden state alone. -/

namespace Sys2Proof.Machine

/-- What holds of every state a run reaches. -/
structure StateInv (s : State) : Prop where
  /-- R24, R26(a): the buffer holds less than a block. -/
  buf_short : s.live.buf.length ≤ 63
  /-- R26(c): `BUFLEN = TOTAL_LEN mod 64`. -/
  buf_total : s.live.buf.length = s.live.totalLen.toNat % 64
  /-- R28: a pending UPDATE has latched at most 4 bytes. -/
  pend_bytes : ∀ d, s.pend = some (.update d) → d.length ≤ 4
  /-- R37: ERRCODE is 0 exactly when ERR is 0. -/
  err_code : s.err = false ↔ s.errcode = 0
  /-- R37, R202: codes 5 to 7 are never produced. -/
  err_code_le : s.errcode.toNat ≤ 4
  /-- R152: PHASE is FINALIZING exactly while a DIGEST is pending. -/
  phase_finalizing : s.phase = .finalizing ↔ s.pend = some .digest
  /-- R39, R152: OUTPUT is never read. -/
  phase_output : s.phase ≠ .output
  /-- R152, R45: while PHASE is EMPTY the Hasher is as created and no digest has been taken. -/
  phase_empty : s.phase = .empty → s.live = ⟨iv, [], 0⟩ ∧ s.digest = zero8 ∧ s.dvalid = false
  /-- R35: DVALID is 0 while a DIGEST is pending. -/
  dvalid_pending : s.pend = some .digest → s.dvalid = false
  /-- R35: while DVALID is 1, DIGEST0..7 are the digest of what has been absorbed. -/
  dvalid_digest : s.dvalid = true → s.digest = finalize s.live.h s.live.buf s.live.totalLen
  /-- R150: the sequencer is in IDLE exactly while no command is pending. -/
  seq_idle : s.seq.ctl = .idle ↔ s.pend = none

/-- The Hasher stands for the byte stream `m` (R26(b), (d)): H has compressed its complete blocks, BUF holds the rest,
TOTAL_LEN is its length modulo 2^64. -/
def StandsFor (x : Hasher) (m : List Byte) : Prop :=
  x.h = streamChain m ∧ x.buf = streamTail m ∧ x.totalLen = BitVec.ofNat 64 m.length

/-- The stream after the completion of a pending command: INIT starts a new one, UPDATE appends (R26, R112, R114). -/
def streamAfterCommand (m : List Byte) : Pending → List Byte
  | .nop => m
  | .init => []
  | .update d => m ++ d
  | .digest => m

/-- The stream after the engine's step. -/
def streamAfterEngine (s : State) (m : List Byte) : List Byte :=
  match s.pend with
  | none => m
  | some p => streamAfterCommand m p

/-- The stream after the machine's next step, from the stream `m` before it (R26). -/
def streamAfterStep (s : State) (m : List Byte) : List Byte :=
  match s.port.inputs with
  | [] => streamAfterEngine s m
  | .complete :: _ => streamAfterEngine s m
  | .reset :: _ => []
  | .cycle :: _ => m
  | .access _ :: _ => m

/-- R61: an access is legal when it is 32 bits wide, at an offset that is a multiple of 4 in 0x00..0x3C. -/
def legalAccess : Access → Bool
  | .read w off => decide (w = .w32) && decide (off % 4 = 0) && decide (off < 0x40)
  | .write w off _ => decide (w = .w32) && decide (off % 4 = 0) && decide (off < 0x40)

/-- The step of an agent is one the spec gives a meaning. -/
def legalEvent : Event → Bool
  | .access a => legalAccess a
  | .complete => true
  | .cycle => true
  | .reset => true

/-- Every step to come is one the spec gives a meaning. -/
def LegalInputs (s : State) : Prop := ∀ e ∈ s.port.inputs, legalEvent e = true

/-- The bytes that the UPDATEs of a host program latch, its statements taken in their order, `d` being what DATA_IN holds
before them (R66, R90). -/
def bytesOfUpdates (d : Word) : List HostStmt → List Byte
  | [] => []
  | .wr off v :: rest =>
    if off = 0x08 then bytesOfUpdates v rest
    else if off = 0x00 then
      match decode v with
      | .ok (.update nb) => (bytes32 d).take nb.toNat ++ bytesOfUpdates d rest
      | .ok .nop => bytesOfUpdates d rest
      | .ok .init => bytesOfUpdates d rest
      | .ok .digest => bytesOfUpdates d rest
      | .error _ => bytesOfUpdates d rest
    else bytesOfUpdates d rest
  | .rd _ _ :: rest => bytesOfUpdates d rest
  | .bnz _ _ _ :: rest => bytesOfUpdates d rest
  | .bz _ _ _ :: rest => bytesOfUpdates d rest
  | .sub _ _ :: rest => bytesOfUpdates d rest
  | .li _ _ :: rest => bytesOfUpdates d rest
  | .j _ :: rest => bytesOfUpdates d rest

/-- The command words a host program writes, in order (R90). -/
def commandsWritten : List HostStmt → List Word
  | [] => []
  | .wr off v :: rest => if off = 0x00 then v :: commandsWritten rest else commandsWritten rest
  | .rd _ _ :: rest => commandsWritten rest
  | .bnz _ _ _ :: rest => commandsWritten rest
  | .bz _ _ _ :: rest => commandsWritten rest
  | .sub _ _ :: rest => commandsWritten rest
  | .li _ _ :: rest => commandsWritten rest
  | .j _ :: rest => commandsWritten rest

/-- The two states agree in everything but the hidden state of R30. -/
def SameButHidden (s t : State) : Prop := { s with seq := t.seq } = t

end Sys2Proof.Machine
end

