-- ==== Sys2Proof/Certificates/Slice0/Obligations.lean ====
section
/-! DEFINITION. The statements about the model. A docstring names the rule of spec/ a statement formalises, or says that it
is derived, and from what. -/

open Sys2Proof Sys2Proof.Machine

/-! ## Reset -/

/-- R45: the value of every piece of state after reset; every readable register reads 0; and the digest of the empty
message can be taken without any INIT. The hidden state and the boundary are not spoken of. -/
def Obligations.ResetLeavesListedValues : Prop :=
  State.reset.live.h =
    ⟨0x6a09e667#32, 0xbb67ae85#32, 0x3c6ef372#32, 0xa54ff53a#32, 0x510e527f#32, 0x9b05688c#32, 0x1f83d9ab#32, 0x5be0cd19#32⟩ ∧
  State.reset.live.buf = [] ∧ State.reset.live.totalLen = 0 ∧ State.reset.pend = none ∧ State.reset.busy = false ∧
  State.reset.dataIn = 0 ∧ (∀ k : Fin 8, word8At State.reset.digest k = 0) ∧ State.reset.dvalid = false ∧
  State.reset.err = false ∧ State.reset.errcode = 0 ∧ State.reset.phase = .empty ∧
  (∀ r : Reg, readReg State.reset r = 0) ∧
  ∃ t, exec .digest State.reset = .next t ∧ (engineStep t).digest = sha256 [] ∧ (engineStep t).dvalid = true

/-- Derived from R230 (its listed values): the reset input, at any point, leaves the reset state whatever was pending; a command
pending then has no effect. The hidden registers' values are the model's choice (log 4), and so is that the host's steps to
come (log 17) and the value it read last (log 3) are kept. -/
def Obligations.ResetInputRestoresResetState : Prop :=
  ∀ (s : State) (rest : List Event), s.port.inputs = .reset :: rest →
    ∃ t, step s = .next t ∧ t = { State.reset with port := ⟨rest, s.port.rdata⟩ } ∧
      t.live = ⟨iv, [], 0⟩ ∧ t.pend = none ∧ t.dataIn = 0 ∧ t.digest = ⟨0, 0, 0, 0, 0, 0, 0, 0⟩ ∧ t.dvalid = false ∧
      t.err = false ∧ t.errcode = 0 ∧ t.phase = .empty

/-- R232: what differs between the completion of INIT and reset, and that nothing else does (hidden state and boundary
apart); INIT is not accepted while a command is pending, and reset abandons the pending command. -/
def Obligations.InitDiffersFromResetInThreeWays : Prop :=
  ∀ s : State,
    (complete .init s).err = s.err ∧ (complete .init s).errcode = s.errcode ∧ (complete .init s).dataIn = s.dataIn ∧
    (complete .init s).phase = .accumulating ∧ (applyReset s).phase = .empty ∧
    (applyReset s).err = false ∧ (applyReset s).errcode = 0 ∧ (applyReset s).dataIn = 0 ∧
    { complete .init s with
        err := (applyReset s).err, errcode := (applyReset s).errcode, dataIn := (applyReset s).dataIn,
        phase := (applyReset s).phase, seq := (applyReset s).seq } = applyReset s ∧
    (s.pend ≠ none → exec .init s = .next (takeInvalidInput .busy s)) ∧
    (applyReset s).pend = none

/-! ## Command words -/

/-- Derived from R81, R82 and R89: the word of each command, written out from the field layout, is decoded as that command. -/
def Obligations.CommandWordsDecode : Prop :=
  decode 0b00000000000000000000000000000000#32 = .ok .nop ∧
  decode 0b00000000000000000000000000000001#32 = .ok .init ∧
  decode 0b00000000000000000000000000000010#32 = .ok (.update 0) ∧
  decode 0b00000000000000000000000001000010#32 = .ok (.update 4) ∧
  decode 0b00000000000000000000000000000011#32 = .ok .digest ∧
  decode 0b00000000000000000000000001010010#32 = .error .badNb ∧
  decode 0b00000000000000000000000010000101#32 = .error .badOp ∧
  decode 0b00000000000000000000000000010011#32 = .error .rsvdBits

/-- R87: exactly eight words are accepted, each as its command; every other value is rejected when written. -/
def Obligations.ExactlyEightWordsAccepted : Prop :=
  (∀ (v : Word) (i : Instr), decode v = .ok i ↔
    (v, i) ∈ [(0x00000000#32, Instr.nop), (0x00000001#32, .init), (0x00000003#32, .digest), (0x00000002#32, .update 0),
      (0x00000012#32, .update 1), (0x00000022#32, .update 2), (0x00000032#32, .update 3), (0x00000042#32, .update 4)]) ∧
  (∀ (v : Word) (busy : Bool),
    v ∉ [0x00000000#32, 0x00000001#32, 0x00000003#32, 0x00000002#32, 0x00000012#32, 0x00000022#32, 0x00000032#32, 0x00000042#32] →
    ∃ c, decodeCommand v busy = .error c) ∧
  (∀ nb : BitVec 3, nb.toNat ≤ 4 → decode ((nb.setWidth 32 <<< 4) ||| 0x2#32) = .ok (.update nb))

/-- Decoding and encoding agree: a command is decoded from its own word, and a word decoded as a command is that command's
and no other. -/
def Obligations.DecodeAndEncodeAgree : Prop :=
  (∀ i : Instr, i.wf = true → decode (encode i) = .ok i) ∧
  (∀ (v : Word) (i : Instr), decode v = .ok i → i.wf = true ∧ encode i = v)

/-- R84: the tests of `decode(v, busy)` in their order, on the fields as numbers, with the codes; one outcome for every
word; and a CMD write acts on the outcome for BUSY as it then is. -/
def Obligations.DecodeTestsInOrder : Prop :=
  InvalidInput.badNb.code = 1 ∧ InvalidInput.badOp.code = 2 ∧ InvalidInput.rsvdBits.code = 3 ∧ InvalidInput.busy.code = 4 ∧
  (∀ (s : State) (v : Word) (rest : List Event), s.port.inputs = .access (.write .w32 0x00 v) :: rest →
    (∀ i, decodeCommand v s.busy = .ok i → step s = exec i (s.withInputs rest)) ∧
    (∀ c, decodeCommand v s.busy = .error c → step s = .next (takeInvalidInput c (s.withInputs rest)))) ∧
  (∀ (v : Word) (busy : Bool),
    decodeCommand v busy =
      if busy then .error .busy
      else if 4 ≤ v.toNat % 16 then .error .badOp
      else if v.toNat / 128 ≠ 0 then .error .rsvdBits
      else if v.toNat % 16 = 2 then
        (if 4 < v.toNat / 16 % 8 then .error .badNb else .ok (.update (BitVec.ofNat 3 (v.toNat / 16 % 8))))
      else if v.toNat / 16 % 8 ≠ 0 then .error .rsvdBits
      else if v.toNat % 16 = 0 then .ok .nop
      else if v.toNat % 16 = 1 then .ok .init
      else .ok .digest)

/-- Derived from opcode_table.json: no word matches two rows, a decoded word matches a row, and a word that matches a row
is decoded or is an UPDATE with NB out of range. -/
def Obligations.TableRowsAreDisjoint : Prop :=
  (∀ (v : Word) (r r' : OpRow), r ∈ opRows → r' ∈ opRows → r.matchesWord v = true → r'.matchesWord v = true → r = r') ∧
  (∀ (v : Word) (i : Instr), decode v = .ok i → ∃ r ∈ opRows, r.matchesWord v = true) ∧
  (∀ (v : Word) (r : OpRow), r ∈ opRows → r.matchesWord v = true → (∃ i, decode v = .ok i) ∨ decode v = .error .badNb)

/-! ## The step -/

/-- Derived from R63 and R110: when the next step is a CMD write of a word that is decoded as a command, the step is the
meaning of that command, the write used up; and so it is with the word the host places with `withFetchWord`. -/
def Obligations.StepRunsDecodedCommand : Prop :=
  (∀ (s : State) (v : Word) (rest : List Event) (i : Instr),
    s.port.inputs = .access (.write .w32 0x00 v) :: rest → decode v = .ok i → step s = exec i (s.withInputs rest)) ∧
  (∀ (s : State) (w : Nat) (i : Instr), decodeTableWord 32 w = some i → step (s.withFetchWord 32 w) = exec i s)

/-- Derived from R110 and R215: the engine's step completes the pending command and leaves none. The rest is the model's
choice: a completion step with nothing pending, which R110 does not enable, changes nothing (log 7), and once the host does
nothing more the engine's step is the machine's (log 2). -/
def Obligations.EngineStepCompletesPending : Prop :=
  (∀ (s : State) (p : Pending) (rest : List Event), s.pend = some p → s.port.inputs = .complete :: rest →
    ∃ t, step s = .next t ∧ t = complete p (s.withInputs rest) ∧ t.pend = none) ∧
  (∀ (s : State) (p : Pending), s.pend = some p → s.port.inputs = [] →
    ∃ t, step s = .next t ∧ t = complete p s ∧ t.pend = none) ∧
  (∀ (s : State) (rest : List Event), s.pend = none → s.port.inputs = .complete :: rest → step s = .next (s.withInputs rest)) ∧
  (∀ s : State, s.pend = none → s.port.inputs = [] → step s = .next s)

/-- Derived from R110, its last sentences: an accepted command's result is the same whatever legal host accesses and internal
steps come between its acceptance and its completion, as if it were applied at acceptance. -/
def Obligations.ResultDoesNotDependOnLatency : Prop :=
  ∀ (s : State) (p : Pending) (es : List Event), s.pend = some p → s.port.inputs = es ++ [.complete] →
    (∀ e ∈ es, legalEvent e = true ∧ e ≠ .complete ∧ e ≠ .reset) →
    ∃ t : State, Host.Core.run Sys2Proof.core (es.length + 1) s = .next t ∧ t.pend = none ∧
      t.live = (complete p s).live ∧ t.digest = (complete p s).digest ∧ t.dvalid = (complete p s).dvalid ∧
      t.phase = (complete p s).phase

/-- Derived from R245 and R151 with the model's reading of fairness (log 2): with `n` legal steps to come, after `n + 1`
steps the pending command, if any, has completed. -/
def Obligations.PendingCommandCompletes : Prop :=
  ∀ s : State, LegalInputs s →
    ∃ t : State, Host.Core.run Sys2Proof.core (s.port.inputs.length + 1) s = .next t ∧ t.pend = none ∧ t.port.inputs = []

/-! ## InvalidInput -/

/-- R203: the whole effect of a rejected command word: ERR and ERRCODE, if ERR was 0, and nothing else; the
rejected command never becomes pending, and one already pending completes as it would have. -/
def Obligations.RejectedWordRaisesInvalidInput : Prop :=
  (∀ (s : State) (v : Word) (rest : List Event) (c : InvalidInput),
    s.port.inputs = .access (.write .w32 0x00 v) :: rest → decodeCommand v s.busy = .error c →
    ∃ t, step s = .next t ∧
      t = (if s.err then s.withInputs rest else { s.withInputs rest with err := true, errcode := c.code }) ∧ t.pend = s.pend ∧
      engineStep t = { engineStep (s.withInputs rest) with err := t.err, errcode := t.errcode }) ∧
  InvalidInput.badNb.code = 1 ∧ InvalidInput.badOp.code = 2 ∧ InvalidInput.rsvdBits.code = 3 ∧ InvalidInput.busy.code = 4

/-- R241: any word written to CMD while a command is pending is rejected with code 4 and dropped; the pending
command is not affected. -/
def Obligations.CommandWhileBusyIsDropped : Prop :=
  ∀ (s : State) (p : Pending) (v : Word) (rest : List Event),
    s.pend = some p → s.port.inputs = .access (.write .w32 0x00 v) :: rest →
    ∃ t, step s = .next t ∧ t.pend = some p ∧ t.err = true ∧ t.errcode = (if s.err then s.errcode else 4) ∧
      { t with err := s.err, errcode := s.errcode } = s.withInputs rest

/-! ## The commands -/

/-- R111 (derived from its pseudocode and "Status written"): NOP submitted to an idle engine is pending, and its
completion leaves every register as it was. That the hidden registers but the row keep their values is the model's choice
(log 5). -/
def Obligations.NopRunsAndChangesNothing : Prop :=
  ∀ (s : State) (rest : List Event), s.pend = none →
    ∃ t, exec .nop s = .next t ∧ t = { s with pend := some .nop, seq := t.seq } ∧
      step (t.withInputs (.complete :: rest)) =
        .next { s with pend := none, seq := { s.seq with ctl := .idle }, port := ⟨rest, s.port.rdata⟩ }

/-- R112 (derived from its pseudocode and "Status written"): INIT submitted to an idle engine is pending, and its
completion starts a new message. That the hidden registers but the row keep their values is the model's choice (log 5). -/
def Obligations.InitRunsAndStartsNewMessage : Prop :=
  ∀ (s : State) (rest : List Event), s.pend = none →
    ∃ t, exec .init s = .next t ∧ t = { s with pend := some .init, seq := t.seq } ∧
      step (t.withInputs (.complete :: rest)) =
        .next { s with
          live := ⟨iv, [], 0⟩, digest := ⟨0, 0, 0, 0, 0, 0, 0, 0⟩, dvalid := false, phase := .accumulating, pend := none
          seq := { s.seq with ctl := .idle }, port := ⟨rest, s.port.rdata⟩ }

/-- R114 (derived from its pseudocode and "Status written"): UPDATE nb, nb in 0..4, submitted to an idle engine latches
the first nb bytes of DATA_IN, most significant first, and its completion appends and counts them; with fewer
than 64 bytes then in the buffer no block is compressed, otherwise the first 64 are and the rest stay. The buffer holds at
most 63 bytes before (R24). That the hidden registers but the row keep their values is the model's choice (log 5). -/
def Obligations.UpdateRunsAndAbsorbsBytes : Prop :=
  ∀ (s : State) (nb : BitVec 3) (rest : List Event) (d all : List Byte),
    s.pend = none → nb.toNat ≤ 4 → s.live.buf.length ≤ 63 →
    d = ([s.dataIn.extractLsb' 24 8, s.dataIn.extractLsb' 16 8, s.dataIn.extractLsb' 8 8, s.dataIn.extractLsb' 0 8]).take nb.toNat →
    all = s.live.buf ++ d →
    ∃ t, exec (.update nb) s = .next t ∧ t = { s with pend := some (.update d), seq := t.seq } ∧
      step (t.withInputs (.complete :: rest)) =
        .next { s with
          live :=
            { h := if 64 ≤ all.length then compress s.live.h (all.take 64) else s.live.h
              buf := if 64 ≤ all.length then all.drop 64 else all
              totalLen := s.live.totalLen + nb.setWidth 64 }
          dvalid := if 1 ≤ nb.toNat then false else s.dvalid
          phase := .accumulating, pend := none
          seq := { s.seq with ctl := .idle }, port := ⟨rest, s.port.rdata⟩ }

/-- R201, R84 (derived): an UPDATE whose NB is 5, 6 or 7 names no byte sequence and takes InvalidInput code 1 on an idle
engine; every command takes code 4 on a busy one. Nothing else changes. That `exec` of such an UPDATE term, which no CMD write
reaches, does what the decoder's rejection does is the model's reading (log 8). -/
def Obligations.CommandsTakeInvalidInput : Prop :=
  (∀ (s : State) (nb : BitVec 3), s.pend = none → 4 < nb.toNat →
    exec (.update nb) s = .next { s with err := true, errcode := if s.err then s.errcode else 1 }) ∧
  (∀ (s : State) (i : Instr), s.pend ≠ none →
    exec i s = .next { s with err := true, errcode := if s.err then s.errcode else 4 })

/-- R116 (derived from its pseudocode and "Status written"): DIGEST submitted to an idle engine is pending with DVALID 0
and PHASE FINALIZING, and its completion writes the result of finalize; H, BUF and TOTAL_LEN are not written. That the hidden registers but
the row keep their values is the model's choice (log 5). -/
def Obligations.DigestRunsAndWritesResult : Prop :=
  ∀ (s : State) (rest : List Event), s.pend = none →
    ∃ t, exec .digest s = .next t ∧
      t = { s with pend := some .digest, dvalid := false, phase := .finalizing, seq := t.seq } ∧
      step (t.withInputs (.complete :: rest)) =
        .next { s with
          digest := finalize s.live.h s.live.buf s.live.totalLen, dvalid := true, phase := .accumulating, pend := none
          seq := { s.seq with ctl := .idle }, port := ⟨rest, s.port.rdata⟩ }

/-- Frame of the four commands at their submission (derived from R110 to R116): no register the host reads changes but
STATUS; nor do H, BUF, TOTAL_LEN, the boundary, nor ERR and ERRCODE when a well-formed command finds the engine idle; DVALID and PHASE
change for DIGEST alone. -/
def Obligations.SubmissionFrame : Prop :=
  ∀ (i : Instr) (s t : State), exec i s = .next t →
    t.live = s.live ∧ t.digest = s.digest ∧ t.dataIn = s.dataIn ∧ t.port = s.port ∧
    (∀ r : Reg, r ≠ .status → readReg t r = readReg s r) ∧
    (s.pend = none → i.wf = true → t.err = s.err ∧ t.errcode = s.errcode) ∧
    (i ≠ .digest → t.dvalid = s.dvalid ∧ t.phase = s.phase)

/-- Frame of the four commands at their completion (derived from R111 to R116): DATA_IN, ERR, ERRCODE and the boundary never
change; H, BUF and TOTAL_LEN change for INIT and UPDATE alone, DIGEST0..7 for INIT and DIGEST alone, and NOP
changes neither DVALID nor PHASE. -/
def Obligations.CompletionFrame : Prop :=
  ∀ (p : Pending) (s : State),
    (complete p s).dataIn = s.dataIn ∧ (complete p s).err = s.err ∧ (complete p s).errcode = s.errcode ∧
    (complete p s).port = s.port ∧
    (p = .nop ∨ p = .digest → (complete p s).live = s.live) ∧
    (p = .nop ∨ (∃ d, p = .update d) → (complete p s).digest = s.digest) ∧
    (p = .nop → (complete p s).dvalid = s.dvalid ∧ (complete p s).phase = s.phase)

/-- R66 (derived, its first sentence): the bytes an accepted UPDATE latches, as numbers. -/
def Obligations.LatchedBytesAreBigEndian : Prop :=
  ∀ (s t : State) (nb : BitVec 3), s.pend = none → nb.toNat ≤ 4 → exec (.update nb) s = .next t →
    ∃ d, t.pend = some (.update d) ∧ d.length = nb.toNat ∧
      ∀ j, j < nb.toNat → (d.getD j 0).toNat = s.dataIn.toNat / 2 ^ (24 - 8 * j) % 256

/-! ## Host accesses -/

/-- R62: a legal read returns the register's value and changes no state, so that a second read gives the same value when
only reads and internal steps come between. -/
def Obligations.ReadsHaveNoSideEffects : Prop :=
  (∀ (s : State) (off : Nat) (rest : List Event), off % 4 = 0 → off < 0x40 →
    s.port.inputs = .access (.read .w32 off) :: rest →
    ∃ t, step s = .next t ∧ t = { s with port := ⟨rest, readReg s (regAt off)⟩ }) ∧
  (∀ (s : State) (es : List Event) (off : Nat), off % 4 = 0 → off < 0x40 →
    (∀ e ∈ es, e = .cycle ∨ ∃ o, o % 4 = 0 ∧ o < 0x40 ∧ e = .access (.read .w32 o)) →
    s.port.inputs = .access (.read .w32 off) :: (es ++ [.access (.read .w32 off)]) →
    ∃ t u : State, step s = .next t ∧ Host.Core.run Sys2Proof.core (es.length + 2) s = .next u ∧
      t.port.rdata = readReg s (regAt off) ∧ u.port.rdata = t.port.rdata)

/-- Derived from R31, R32 and R40 to R43: what the register at each offset of the window reads. -/
def Obligations.RegisterMapReads : Prop :=
  ∀ s : State,
    readReg s (regAt 0x00) = 0 ∧ readReg s (regAt 0x04) = statusWord s ∧ readReg s (regAt 0x08) = s.dataIn ∧
    readReg s (regAt 0x0C) = 0 ∧ readReg s (regAt 0x18) = 0 ∧ readReg s (regAt 0x1C) = 0 ∧
    (readReg s (regAt 0x10)).toNat = s.live.totalLen.toNat % 2 ^ 32 ∧
    (readReg s (regAt 0x14)).toNat = s.live.totalLen.toNat / 2 ^ 32 ∧
    readReg s (regAt 0x20) = s.digest.w0 ∧ readReg s (regAt 0x24) = s.digest.w1 ∧ readReg s (regAt 0x28) = s.digest.w2 ∧
    readReg s (regAt 0x2C) = s.digest.w3 ∧ readReg s (regAt 0x30) = s.digest.w4 ∧ readReg s (regAt 0x34) = s.digest.w5 ∧
    readReg s (regAt 0x38) = s.digest.w6 ∧ readReg s (regAt 0x3C) = s.digest.w7

/-- R33: every field of STATUS where the spec puts it, with its legal values; the reserved bits read 0; and a write
of STATUS clears ERR and ERRCODE when bit 2 is set, and is ignored otherwise. The invariant rules out states no run
reaches. -/
def Obligations.StatusFields : Prop :=
  (∀ s : State, readReg s (regAt 0x04) = statusWord s) ∧
  (∀ s : State, StateInv s →
    (statusWord s).toNat =
      s.live.buf.length * 2 ^ 16 + (phaseCode s.phase).toNat * 2 ^ 8 + s.errcode.toNat * 2 ^ 4 + s.err.toNat * 2 ^ 2 +
        s.dvalid.toNat * 2 + s.busy.toNat ∧
    s.live.buf.length ≤ 63 ∧ (phaseCode s.phase).toNat ≤ 2 ∧ s.errcode.toNat ≤ 4 ∧
    (statusWord s).extractLsb' 3 1 = 0 ∧ (statusWord s).extractLsb' 7 1 = 0 ∧ (statusWord s).extractLsb' 10 6 = 0 ∧
    (statusWord s).extractLsb' 22 10 = 0) ∧
  (∀ (s : State) (v : Word) (rest : List Event), s.port.inputs = .access (.write .w32 0x04 v) :: rest →
    step s = .next (if v.getLsbD 2 then { s.withInputs rest with err := false, errcode := 0 } else s.withInputs rest)) ∧
  phaseCode .empty = 0 ∧ phaseCode .accumulating = 1 ∧ phaseCode .finalizing = 2 ∧ statusWord State.reset = 0

/-- R43: the reserved offsets read 0; writes to them, to LEN_LO, LEN_HI and to DIGEST0..7 are ignored and change no
state; the reserved STATUS bits read 0. -/
def Obligations.ReadOnlyRegistersIgnoreWrites : Prop :=
  (∀ (s : State) (off : Nat), off ∈ [0x0C, 0x18, 0x1C] → readReg s (regAt off) = 0) ∧
  (∀ (s : State) (off : Nat) (v : Word) (rest : List Event),
    off ∈ [0x0C, 0x10, 0x14, 0x18, 0x1C, 0x20, 0x24, 0x28, 0x2C, 0x30, 0x34, 0x38, 0x3C] →
    s.port.inputs = .access (.write .w32 off v) :: rest → step s = .next (s.withInputs rest)) ∧
  (∀ (s : State) (i : Nat), i ∈ [3, 7] ∨ (10 ≤ i ∧ i ≤ 15) ∨ (22 ≤ i ∧ i ≤ 31) → (statusWord s).getLsbD i = false)

/-- R40: DATA_IN is written and read at 0x08, the engine never writes it, UPDATE takes its bytes at acceptance, and a later
write does not change what a pending command absorbs. -/
def Obligations.DataInIsLatchedAtAcceptance : Prop :=
  (∀ (s : State) (v : Word) (rest : List Event), s.port.inputs = .access (.write .w32 0x08 v) :: rest →
    step s = .next { s.withInputs rest with dataIn := v }) ∧
  (∀ s : State, readReg s (regAt 0x08) = s.dataIn) ∧
  (∀ s : State, (engineStep s).dataIn = s.dataIn ∧ (cycle s).dataIn = s.dataIn) ∧
  (∀ (s : State) (nb : BitVec 3), s.pend = none → nb.toNat ≤ 4 →
    ∃ t, exec (.update nb) s = .next t ∧ t.pend = some (.update ((bytes32 s.dataIn).take nb.toNat))) ∧
  (∀ (s : State) (d : List Byte) (v : Word) (rest : List Event), s.pend = some (.update d) →
    s.port.inputs = .access (.write .w32 0x08 v) :: rest →
    ∃ t, step s = .next t ∧ t.pend = some (.update d) ∧ (engineStep t).live = (engineStep s).live)

/-- R61: an access of 8 or 16 bits, at an offset that is not a multiple of 4, or at 0x40 or above is refused; a legal
access always answers a next state. Which name it is refused by is log 6's. -/
def Obligations.IllegalAccessIsRefused : Prop :=
  ∀ (s : State) (w : Width) (off : Nat) (v : Word) (rest : List Event) (a : Access),
    a = .read w off ∨ a = .write w off v → s.port.inputs = .access a :: rest →
    (w ≠ .w32 ∨ off % 4 ≠ 0 ∨ 0x40 ≤ off → ∃ r, step s = .refused r) ∧
    (w = .w32 → off % 4 = 0 → off < 0x40 → ∃ t, step s = .next t)

/-- Derived from R61, R69, R200 and R205: with only legal steps to come the machine always answers a next state, with only
legal steps to come. -/
def Obligations.LegalInputsNeverStop : Prop :=
  ∀ s : State, LegalInputs s → ∃ t, step s = .next t ∧ LegalInputs t

/-! ## Status fields -/

/-- R34: BUSY is bit 0 of STATUS, 1 while a command is pending; acceptance sets it, completion and reset clear it, and a
rejected command does not set it. -/
def Obligations.BusyBitTracksPending : Prop :=
  (∀ s : State, (statusWord s).getLsbD 0 = true ↔ s.pend ≠ none) ∧
  (∀ (i : Instr) (s : State), s.pend = none → i.wf = true → ∃ t, exec i s = .next t ∧ (statusWord t).getLsbD 0 = true) ∧
  (∀ (p : Pending) (s : State), (statusWord (complete p s)).getLsbD 0 = false) ∧
  (∀ s : State, (statusWord (applyReset s)).getLsbD 0 = false) ∧
  (∀ (c : InvalidInput) (s : State), (statusWord (takeInvalidInput c s)).getLsbD 0 = (statusWord s).getLsbD 0)

/-- R36 and R37: ERR is set by a rejection alone, and ERRCODE then is its code; both are cleared by a STATUS write with bit
2 set or by reset alone; while ERR stays 1 ERRCODE stays; ERRCODE is 0 exactly when ERR is 0, and at most 4; ERR does
not block a later command. -/
def Obligations.ErrorIsSticky : Prop :=
  (∀ s t : State, step s = .next t → s.err = true → t.err = false →
    t.errcode = 0 ∧ ((∃ (v : Word) (rest : List Event), s.port.inputs = .access (.write .w32 0x04 v) :: rest ∧ v.getLsbD 2 = true) ∨
      ∃ rest, s.port.inputs = .reset :: rest)) ∧
  (∀ s t : State, step s = .next t → s.err = false → t.err = true →
    ∃ (v : Word) (rest : List Event) (c : InvalidInput), s.port.inputs = .access (.write .w32 0x00 v) :: rest ∧
      decodeCommand v s.busy = .error c ∧ t.errcode = c.code) ∧
  (∀ s t : State, step s = .next t → s.err = true → t.err = true → t.errcode = s.errcode) ∧
  (∀ (s : State) (v : Word) (rest : List Event) (c : InvalidInput), s.port.inputs = .access (.write .w32 0x00 v) :: rest →
    decodeCommand v s.busy = .error c →
    ∃ t, step s = .next t ∧ t.err = true ∧ t.errcode = if s.err then s.errcode else c.code) ∧
  (∀ (s : State) (v : Word) (rest : List Event), s.port.inputs = .access (.write .w32 0x04 v) :: rest → v.getLsbD 2 = true →
    ∃ t, step s = .next t ∧ t.err = false ∧ t.errcode = 0) ∧
  (∀ s : State, (applyReset s).err = false ∧ (applyReset s).errcode = 0) ∧
  (∀ s : State, StateInv s → (s.err = false ↔ s.errcode = 0) ∧ s.errcode.toNat ≤ 4) ∧
  (∀ (i : Instr) (s t : State) (e : Bool) (c : BitVec 3), s.pend = none → i.wf = true → exec i s = .next t →
    exec i { s with err := e, errcode := c } = .next { t with err := e, errcode := c }) ∧
  (∀ (p : Pending) (s : State) (e : Bool) (c : BitVec 3),
    complete p { s with err := e, errcode := c } = { complete p s with err := e, errcode := c })

/-- R35 (derived, with the stream of R26): what sets and clears DVALID, and what it means: while it is 1, DIGEST0..7 are the digest of the bytes of the
UPDATEs completed since the last INIT or reset. -/
def Obligations.DvalidMeansDigestIsCurrent : Prop :=
  (∀ (s : State) (m : List Byte), StateInv s → StandsFor s.live m → s.dvalid = true → s.digest = sha256 m) ∧
  (∀ s : State, (complete .digest s).dvalid = true ∧ (complete .init s).dvalid = false ∧
    (applyReset s).dvalid = false ∧ (complete .nop s).dvalid = s.dvalid ∧ (complete (.update []) s).dvalid = s.dvalid) ∧
  (∀ (s : State) (d : List Byte), 1 ≤ d.length → (complete (.update d) s).dvalid = false) ∧
  (∀ s t : State, s.pend = none → exec .digest s = .next t → t.dvalid = false) ∧
  (∀ (c : InvalidInput) (s : State), (takeInvalidInput c s).dvalid = s.dvalid)

/-- R152: PHASE after each event, and in every state that meets the invariant PHASE is FINALIZING exactly while
a DIGEST is pending and never reads 3. -/
def Obligations.PhaseFollowsStateMachine : Prop :=
  (∀ s : State, (applyReset s).phase = .empty ∧ (complete .init s).phase = .accumulating ∧
    (complete .digest s).phase = .accumulating ∧ (complete .nop s).phase = s.phase) ∧
  (∀ (s : State) (d : List Byte), (complete (.update d) s).phase = .accumulating) ∧
  (∀ s : State, s.pend = none → ∃ t, exec .digest s = .next t ∧ t.phase = .finalizing) ∧
  (∀ (c : InvalidInput) (s : State), (takeInvalidInput c s).phase = s.phase) ∧
  (∀ (s t : State) (a : Access) (rest : List Event), s.port.inputs = .access a :: rest →
    (∀ (w : Width) (v : Word), a ≠ .write w 0x00 v) → step s = .next t → t.phase = s.phase) ∧
  (∀ s : State, StateInv s → (s.phase = .finalizing ↔ s.pend = some .digest) ∧ phaseCode s.phase ≠ 3)

/-- R22 (derived, its second and last sentences): H changes only by reset, by the completion of INIT, and by the completion of an UPDATE that completes a
block; and no register of the window depends on it. -/
def Obligations.OnlyThreeWritersOfH : Prop :=
  (∀ s t : State, step s = .next t → t.live.h ≠ s.live.h →
    (∃ rest, s.port.inputs = .reset :: rest) ∨
    ((s.port.inputs = [] ∨ ∃ rest, s.port.inputs = .complete :: rest) ∧
      (s.pend = some .init ∨ ∃ d, s.pend = some (.update d) ∧ 64 ≤ s.live.buf.length + d.length))) ∧
  (∀ (s : State) (x : Words8) (r : Reg), readReg { s with live := { s.live with h := x } } r = readReg s r)

/-- Derived from R240: H, BUF, TOTAL_LEN and DIGEST0..7 change, and DVALID becomes 1, only at a completion or a reset. -/
def Obligations.ResultsChangeOnlyAtCompletion : Prop :=
  ∀ s t : State, step s = .next t → (∀ rest, s.port.inputs ≠ .reset :: rest) →
    ((s.port.inputs = [] ∨ ∃ rest, s.port.inputs = .complete :: rest) → s.pend = none) →
    t.live = s.live ∧ t.digest = s.digest ∧ (t.dvalid = true → s.dvalid = true)

/-! ## The datapath -/

/-- R160 (derived, its bit formula): a right rotation bit by bit. -/
def Obligations.RotrMovesBits : Prop :=
  ∀ (x : Word) (n i : Nat), 0 < n → n < 32 → i < 32 → (rotr x n).getLsbD i = x.getLsbD ((i + n) % 32)

/-- R169 and R170 (derived, their bit readings): Ch selects, Maj is the majority. -/
def Obligations.ChSelectsAndMajVotes : Prop :=
  ∀ (x y z : Word) (i : Nat), i < 32 →
    (ch x y z).getLsbD i = (if x.getLsbD i then y.getLsbD i else z.getLsbD i) ∧
    (maj x y z).getLsbD i =
      decide (2 ≤ (x.getLsbD i).toNat + (y.getLsbD i).toNat + (z.getLsbD i).toNat)

/-- R165 to R168 (derived, their pseudocode bit by bit): each sigma is the exclusive or of its three terms; a shifted term
has no bit past the top. -/
def Obligations.SigmasMixThreeTerms : Prop :=
  ∀ (x : Word) (i : Nat), i < 32 →
    (smallSigma0 x).getLsbD i = ((x.getLsbD ((i + 7) % 32) ^^ x.getLsbD ((i + 18) % 32)) ^^ (decide (i + 3 < 32) && x.getLsbD (i + 3))) ∧
    (smallSigma1 x).getLsbD i = ((x.getLsbD ((i + 17) % 32) ^^ x.getLsbD ((i + 19) % 32)) ^^ (decide (i + 10 < 32) && x.getLsbD (i + 10))) ∧
    (bigSigma0 x).getLsbD i = ((x.getLsbD ((i + 2) % 32) ^^ x.getLsbD ((i + 13) % 32)) ^^ x.getLsbD ((i + 22) % 32)) ∧
    (bigSigma1 x).getLsbD i = ((x.getLsbD ((i + 6) % 32) ^^ x.getLsbD ((i + 11) % 32)) ^^ x.getLsbD ((i + 25) % 32))

/-- R163 (derived, its formula and grouping): the adder chain is the sum modulo 2^32, in any order. -/
def Obligations.AdderChainWraps : Prop :=
  (∀ xs : List Word, (add32 xs).toNat = (xs.map BitVec.toNat).sum % 2 ^ 32) ∧
  (∀ xs ys : List Word, xs.Perm ys → add32 xs = add32 ys)

/-- R175 and R176: the schedule of a 64-byte block: its own 16 words, big-endian, and the recurrence after them, with
the zero block and the example of "abc". -/
def Obligations.ScheduleFollowsRecurrence : Prop :=
  (∀ blk : List Byte, blk.length = 64 →
    (schedule blk).length = 64 ∧
    (∀ i, i < 16 → ((schedule blk).getD i 0).toNat =
      (blk.getD (4 * i) 0).toNat * 2 ^ 24 + (blk.getD (4 * i + 1) 0).toNat * 2 ^ 16 + (blk.getD (4 * i + 2) 0).toNat * 2 ^ 8 +
        (blk.getD (4 * i + 3) 0).toNat) ∧
    (∀ i, 16 ≤ i → i < 64 → (schedule blk).getD i 0 =
      (schedule blk).getD (i - 16) 0 + smallSigma0 ((schedule blk).getD (i - 15) 0) + (schedule blk).getD (i - 7) 0 +
        smallSigma1 ((schedule blk).getD (i - 2) 0)) ∧
    (blk = List.replicate 64 0 → ∀ i, i < 64 → (schedule blk).getD i 0 = 0)) ∧
  (schedule (pad [0x61, 0x62, 0x63] 3)).take 17 = [0x61626380#32] ++ List.replicate 14 0 ++ [0x00000018#32, 0x61626380#32]

/-- R178 (derived, its formulas): the 16-word window supplies the word the schedule has, at every round. -/
def Obligations.RollingWindowSuppliesSchedule : Prop :=
  ∀ (blk : List Byte) (r : Nat → List Word), r 0 = blockWords blk → (∀ t, r (t + 1) = windowShift t (r t)) →
    ∀ t, t < 64 → (r t).length = 16 ∧ windowWord t (r t) = (schedule blk).getD t 0

/-- R181 and R184 (and the load of R180): a compression is 64 rounds from the chaining value, in increasing order, each updating all
eight variables at once, and the feed-forward; with the example of round 0 of "abc". -/
def Obligations.CompressIsSixtyFourRounds : Prop :=
  (∀ (c : Words8) (blk : List Byte) (v : Nat → Working),
    v 0 = ⟨c.w0, c.w1, c.w2, c.w3, c.w4, c.w5, c.w6, c.w7⟩ →
    (∀ t, t < 64 → ∃ t1 t2 : Word,
      t1 = (v t).h + bigSigma1 (v t).e + ch (v t).e (v t).f (v t).g + kAt t + (schedule blk).getD t 0 ∧
      t2 = bigSigma0 (v t).a + maj (v t).a (v t).b (v t).c ∧
      v (t + 1) = ⟨t1 + t2, (v t).a, (v t).b, (v t).c, (v t).d + t1, (v t).e, (v t).f, (v t).g⟩) →
    compress c blk =
      ⟨c.w0 + (v 64).a, c.w1 + (v 64).b, c.w2 + (v 64).c, c.w3 + (v 64).d, c.w4 + (v 64).e, c.w5 + (v 64).f,
       c.w6 + (v 64).g, c.w7 + (v 64).h⟩) ∧
  temp1 (loadWorking iv) 0x428a2f98#32 0x61626380#32 = 0x54DA50E8#32 ∧ temp2 (loadWorking iv) = 0x08909AE5#32 ∧
  (shaRound (loadWorking iv) 0x428a2f98#32 0x61626380#32).a = 0x5D6AEBCD#32 ∧
  (shaRound (loadWorking iv) 0x428a2f98#32 0x61626380#32).e = 0xFA2A4622#32

/-- R102 (derived, its integer formulas; the convention is from outside the source, log 15): each word of the ROM is the
first 32 bits of the fractional part of the root of its prime. -/
def Obligations.RomHoldsRootsOfPrimes : Prop :=
  ∀ ps : List Nat,
    ps = (List.range 312).filter (fun n => decide (2 ≤ n) && (List.range n).all (fun m => decide (m < 2) || n % m != 0)) →
    (∀ i : Fin 8, ∃ c, c ^ 2 ≤ ps.getD i 0 * 2 ^ 64 ∧ ps.getD i 0 * 2 ^ 64 < (c + 1) ^ 2 ∧ (word8At iv i).toNat = c % 2 ^ 32) ∧
    (∀ t : Fin 64, ∃ c, c ^ 3 ≤ ps.getD t 0 * 2 ^ 96 ∧ ps.getD t 0 * 2 ^ 96 < (c + 1) ^ 3 ∧ (kAt t).toNat = c % 2 ^ 32)

/-- Derived from R185, R117 and the two digests of 95_test_vectors.md section 1.1. -/
def Obligations.KnownDigests : Prop :=
  sha256 [0x61, 0x62, 0x63] =
    ⟨0xba7816bf#32, 0x8f01cfea#32, 0x414140de#32, 0x5dae2223#32, 0xb00361a3#32, 0x96177a9c#32, 0xb410ff61#32, 0xf20015ad#32⟩ ∧
  sha256 [] =
    ⟨0xe3b0c442#32, 0x98fc1c14#32, 0x9afbf4c8#32, 0x996fb924#32, 0x27ae41e4#32, 0x649b934c#32, 0xa495991b#32, 0x7852b855#32⟩

/-! ## Padding -/

/-- R140 and R142: the padded bytes: buffer, marker, the least zero fill that leaves 56 modulo 64, the length suffix; 64
bytes for a buffer of at most 55 bytes, 128 for a longer one, whose second block is zero fill and suffix alone. -/
def Obligations.PaddingFillsOneOrTwoBlocks : Prop :=
  ∀ (buf : List Byte) (total : BitVec 64), buf.length ≤ 63 →
    ∃ z : Nat, pad buf total = buf ++ [0x80#8] ++ List.replicate z 0#8 ++ lengthSuffix total ∧
      (lengthSuffix total).length = 8 ∧
      (∀ j, j < 8 → ((lengthSuffix total).getD j 0).toNat = total.toNat * 8 % 2 ^ 64 / 2 ^ (56 - 8 * j) % 256) ∧
      (buf.length + 1 + z) % 64 = 56 ∧ (∀ y, (buf.length + 1 + y) % 64 = 56 → z ≤ y) ∧
      (buf.length ≤ 55 → z = 55 - buf.length ∧ (pad buf total).length = 64) ∧
      (56 ≤ buf.length → z = 119 - buf.length ∧ (pad buf total).length = 128 ∧
        (pad buf total).drop 64 = List.replicate 56 0#8 ++ lengthSuffix total)

/-- R141: the suffix is `TOTAL_LEN * 8` modulo 2^64, most significant byte first; its low 3 bits are 0, bits 63:61 of
TOTAL_LEN do not reach it, and it does not depend on the buffer. -/
def Obligations.LengthSuffixIsBitCount : Prop :=
  (∀ total : BitVec 64,
    lengthSuffix total = bytes64 (BitVec.ofNat 64 (total.toNat * 8 % 2 ^ 64)) ∧
    lengthSuffix total = bytes64 ((total.extractLsb' 0 61).setWidth 64 <<< 3) ∧
    ((lengthSuffix total).getD 7 0).toNat % 8 = 0 ∧
    (∀ other : BitVec 64, other.extractLsb' 0 61 = total.extractLsb' 0 61 → lengthSuffix other = lengthSuffix total)) ∧
  (∀ (buf : List Byte) (total : BitVec 64), buf.length ≤ 63 →
    (pad buf total).drop ((pad buf total).length - 8) = lengthSuffix total) ∧
  (∀ s : State, (complete .digest s).digest = finalize s.live.h s.live.buf s.live.totalLen)

/-- R145: finalize compresses the one or two padded blocks into the snapshot, in order; the 32-byte digest is its words,
most significant byte first. -/
def Obligations.FinalizeCompressesPaddedBlocks : Prop :=
  (∀ (h : Words8) (buf : List Byte) (total : BitVec 64), buf.length ≤ 63 →
    finalize h buf total =
      if buf.length ≤ 55 then compress h (pad buf total)
      else compress (compress h ((pad buf total).take 64)) ((pad buf total).drop 64)) ∧
  (∀ x : Words8, digestBytes x =
    bytes32 x.w0 ++ bytes32 x.w1 ++ bytes32 x.w2 ++ bytes32 x.w3 ++ bytes32 x.w4 ++ bytes32 x.w5 ++ bytes32 x.w6 ++ bytes32 x.w7) ∧
  (∀ w : Word, (bytes32 w).length = 4 ∧ ∀ j, j < 4 → ((bytes32 w).getD j 0).toNat = w.toNat / 2 ^ (24 - 8 * j) % 256)

/-! ## Messages -/

/-- R26 (derived, its clauses (b) and (d)), the engine's state stands for the byte stream: whatever step is taken, H has
compressed the complete blocks, BUF holds the rest and TOTAL_LEN counts. -/
def Obligations.StreamIsKeptByEveryStep : Prop :=
  (∀ (s t : State) (m : List Byte), StandsFor s.live m → step s = .next t → StandsFor t.live (streamAfterStep s m)) ∧
  StandsFor State.reset.live []

/-- R114 corner case (e) (derived): the state after a sequence of UPDATEs depends only on the concatenation of their
bytes. -/
def Obligations.ChunkingDoesNotMatter : Prop :=
  ∀ (x : Hasher) (ds : List (List Byte)), x.buf.length ≤ 63 →
    ds.foldl (fun y d => absorb d y) x = absorb ds.flatten x

/-- R117 (derived): after INIT, whatever split of a message across UPDATEs and whatever DIGESTs and NOPs among
them, a DIGEST leaves the SHA-256 of the whole message in DIGEST0..7, with DVALID 1. -/
def Obligations.DigestIsOfWholeMessage : Prop :=
  ∀ (s t : State) (ps : List Pending), (∀ p ∈ ps, p ≠ .init) →
    t = ps.foldl (fun s p => complete p s) (complete .init s) →
    (complete .digest t).digest = sha256 (ps.flatMap pendingBytes) ∧ (complete .digest t).dvalid = true

/-- R116 corner cases (b) and (c), R146 (derived): DIGEST is repeatable and does not touch the message; an UPDATE after it
goes on as if it had not been issued. -/
def Obligations.DigestDoesNotDisturbMessage : Prop :=
  ∀ (s : State) (p : Pending),
    (complete .digest s).live = s.live ∧
    (complete .digest (complete .digest s)).digest = (complete .digest s).digest ∧
    (complete p (complete .digest s)).live = (complete p s).live

/-! ## Invariants -/

/-- The reset state meets the invariant. -/
def Obligations.ResetMeetsInvariant : Prop := StateInv State.reset

/-- Every step keeps the invariant (R24, R26, R35, R37, R39, R150, R152), from every state that meets it. -/
def Obligations.EveryStepKeepsInvariant : Prop :=
  ∀ s t : State, StateInv s → step s = .next t → StateInv t

/-! ## The sequencer and the hidden state -/

/-- R150 and R246 (derived): from the acceptance of a command the reference sequencer needs its reference
latency, no less, to reach DONE, and what it then holds is what the completion writes. That it prepares copies of the
registers and waits in DONE for the completion is the model's choice (log 20). -/
def Obligations.SequencerPreparesCompletion : Prop :=
  ∀ (s t : State) (p : Pending), s.pend = some p → s.live.buf.length ≤ 63 → s.seq.ctl = firstRow p →
    (∀ d, p = .update d → d.length ≤ 4) → t = cycles (refLatency s.live.buf.length p - 1) s →
    t.seq.ctl = .done ∧ (∀ k, k < refLatency s.live.buf.length p - 1 → (cycles k s).seq.ctl ≠ .done) ∧
    (p = .init ∨ (∃ d, p = .update d) → t.seq.live = (complete p s).live) ∧
    (p = .init ∨ p = .digest → t.seq.digest = (complete p s).digest) ∧
    { t with seq := s.seq } = s

/-- R30 (derived): two states that differ in hidden state alone take the same steps to states that differ in hidden
state alone, and every register reads the same in both. -/
def Obligations.HiddenStateIsUnobservable : Prop :=
  ∀ s t : State, SameButHidden s t →
    (∀ r : Reg, readReg s r = readReg t r) ∧
    (∀ s', step s = .next s' → ∃ t', step t = .next t' ∧ SameButHidden s' t') ∧
    (∀ x, step s = .refused x ↔ step t = .refused x)

/-! ## Several engines -/

/-- R213 and R75 (derived): a step at one engine, and an access outside an engine's window, leave that engine as it was. -/
def Obligations.EnginesAreIndependent : Prop :=
  (∀ (p q : Platform) (i j : Nat), j ≠ i → platformStep (.complete i) p = .next q ∨ platformStep (.cycle i) p = .next q →
    q[j]? = p[j]?) ∧
  (∀ (p q : Platform) (w : Width) (addr : Nat) (v : Word) (j : Nat) (g : Engine), p[j]? = some g → inWindow g addr = false →
    platformStep (.read w addr) p = .next q ∨ platformStep (.write w addr v) p = .next q → q[j]? = some g)

/-- R68 and R213 (derived): a word access, write or read, at `BASE + off` of an engine, the windows not overlapping, is that
engine's access at `off`, whatever stands on the platform beside it, and a read delivers that engine's register; bases as
R6 and R68 allow them give windows that do not overlap; and reset reaches every engine. The list of engines with their
bases is the model's form of the two open parameters (log 10); what reset leaves of hidden state and boundary is the
model's choice (logs 3, 4 and 17). -/
def Obligations.WindowAccessReachesItsEngine : Prop :=
  (∀ (p : Config.Parameters) (b c off : Nat), p.wf = true → b ∈ p.bases → c ∈ p.bases → b ≠ c → off < 0x40 →
    inWindow ⟨b, State.reset⟩ (c + off) = false) ∧
  (∀ (before after : Platform) (g : Engine) (off : Nat) (v : Word), off % 4 = 0 → off < 0x40 →
    (∀ x ∈ before, inWindow x (g.base + off) = false) →
    ∃ b, step (g.block.withInputs (.access (.write .w32 off v) :: g.block.port.inputs)) = .next b ∧
      platformStep (.write .w32 (g.base + off) v) (before ++ g :: after) = .next (before ++ { g with block := b } :: after)) ∧
  (∀ (before after : Platform) (g : Engine) (off : Nat), off % 4 = 0 → off < 0x40 →
    (∀ x ∈ before, inWindow x (g.base + off) = false) →
    ∃ b, step (g.block.withInputs (.access (.read .w32 off) :: g.block.port.inputs)) = .next b ∧
      b.port.rdata = readReg g.block (regAt off) ∧
      platformStep (.read .w32 (g.base + off)) (before ++ g :: after) = .next (before ++ { g with block := b } :: after)) ∧
  (∀ p : Platform, ∃ q, platformStep .reset p = .next q ∧ q.length = p.length ∧
    ∀ (j : Nat) (g : Engine), p[j]? = some g → q[j]? = some { g with block := applyReset g.block })

/-! ## Host programs -/

/-- R91 (derived, its expansions of POLL, ABSORB, CREATE and HASH): the UPDATEs of HASH latch exactly the bytes of the message,
between one INIT and one DIGEST; each is of 1 to 4 bytes; every branch is a POLL back to the read of STATUS before it; the
program starts with a POLL and a POLL follows each of its CMD writes, so that no command of it is written while another is
pending; and after the POLL of the DIGEST come the reads of DIGEST0..7 and nothing else. Positions as labels and the
number of `rp` are log 16's. -/
def Obligations.HashProgramAbsorbsMessage : Prop :=
  ∀ (pos : Nat) (m : List Byte) (d : Word),
    bytesOfUpdates d (hashStmts pos m) = m ∧
    (∃ us : List Word, commandsWritten (hashStmts pos m) = [0x00000001#32] ++ us ++ [0x00000003#32] ∧
      us.length = (m.length + 3) / 4 ∧ ∀ u ∈ us, u ∈ [0x00000012#32, 0x00000022#32, 0x00000032#32, 0x00000042#32]) ∧
    (∀ (i n l : Nat) (k : Word), (hashStmts pos m)[i]? = some (.bnz n k l) →
      k = 1 ∧ l + 1 = pos + i ∧ (hashStmts pos m)[i - 1]? = some (.rd 0x04 n)) ∧
    (hashStmts pos m).take 2 = [.rd 0x04 rp, .bnz rp 0x1#32 pos] ∧
    (∀ (i : Nat) (v : Word), (hashStmts pos m)[i]? = some (.wr 0x00 v) →
      (hashStmts pos m)[i + 1]? = some (.rd 0x04 rp) ∧
      (hashStmts pos m)[i + 2]? = some (.bnz rp 0x1#32 (pos + i + 1))) ∧
    (∃ i : Nat, (hashStmts pos m)[i]? = some (.wr 0x00 0x00000003#32) ∧
      (hashStmts pos m).drop (i + 3) =
        [.rd 0x20 0, .rd 0x24 1, .rd 0x28 2, .rd 0x2C 3, .rd 0x30 4, .rd 0x34 5, .rd 0x38 6, .rd 0x3C 7])

/-- R90 (derived, its last sentence): a statement of the host reaches the engine only as the access it makes; a read puts
the value the engine delivered in its variable. -/
def Obligations.HostReachesEngineByAccessesAlone : Prop :=
  ∀ y z : System, hostStep y = .next z →
    match y.agent.prog[y.agent.pos]? with
    | some (.wr off v) => step (y.block.withInputs (.access (.write .w32 off v) :: y.block.port.inputs)) = .next z.block
    | some (.rd off n) =>
      step (y.block.withInputs (.access (.read .w32 off) :: y.block.port.inputs)) = .next z.block ∧
        hostVar z.agent n = z.block.port.rdata
    | _ => z.block = y.block
end

