-- ==== Sys2Proof/Laws/Blocks.lean ====
section
/-! SUPPORT. Block-wise compression of byte sequences, padding lengths, and the schedule's recurrence. -/

namespace Sys2Proof.Laws

open Sys2Proof Sys2Proof.Machine

/-- Compressing m and then n blocks is compressing m + n. -/
theorem compressBlocks_add (m n : Nat) (c : Words8) (bs : List Byte) :
    compressBlocks (m + n) c bs = compressBlocks n (compressBlocks m c bs) (bs.drop (64 * m)) := by
  induction m generalizing c bs with
  | zero => simp [compressBlocks]
  | succ m ih =>
    rw [Nat.add_right_comm, compressBlocks, ih, compressBlocks, List.drop_drop]
    congr 2; omega

/-- Bytes past the blocks compressed do not matter. -/
theorem compressBlocks_append {n : Nat} {bs : List Byte} (h : 64 * n ≤ bs.length) (c : Words8) (xs : List Byte) :
    compressBlocks n c (bs ++ xs) = compressBlocks n c bs := by
  induction n generalizing c bs with
  | zero => rfl
  | succ n ih =>
    rw [compressBlocks, compressBlocks, List.take_append_of_le_length (by omega), List.drop_append_of_le_length (by omega),
      ih (by simp; omega)]

/-- The buffer an absorption leaves holds less than a block. -/
theorem absorb_buf_length (d : List Byte) (x : Hasher) :
    (absorb d x).buf.length = (x.buf.length + d.length) % 64 := by
  simp [absorb]; omega

/-- Absorbing nothing into a short buffer changes nothing. -/
theorem absorb_nil {x : Hasher} (h : x.buf.length ≤ 63) : absorb [] x = x := by
  have h0 : x.buf.length / 64 = 0 := by omega
  simp [absorb, h0, compressBlocks]

/-- Absorbing `a` and then `b` is absorbing `a ++ b`. -/
theorem absorb_absorb (a b : List Byte) (x : Hasher) : absorb b (absorb a x) = absorb (a ++ b) x := by
  have hq : (x.buf.length + (a.length + b.length)) / 64 =
      (x.buf.length + a.length) / 64 + (x.buf.length + a.length - 64 * ((x.buf.length + a.length) / 64) + b.length) / 64 := by
    omega
  have hdrop : (x.buf ++ (a ++ b)).drop (64 * ((x.buf.length + a.length) / 64)) =
      (x.buf ++ a).drop (64 * ((x.buf.length + a.length) / 64)) ++ b := by
    rw [← List.append_assoc, List.drop_append_of_le_length (by simp; omega)]
  simp only [absorb, List.length_append, List.length_drop, hq, Hasher.mk.injEq]
  refine ⟨?_, ?_, ?_⟩
  · rw [compressBlocks_add, hdrop, ← List.append_assoc,
      compressBlocks_append (n := (x.buf.length + a.length) / 64) (bs := x.buf ++ a) (by simp; omega)]
  · rw [Nat.mul_add, ← List.drop_drop, hdrop]
  · rw [BitVec.add_assoc, ← BitVec.ofNat_add]

/-- The Hasher just created, having absorbed `m`, stands for `m`. -/
theorem absorb_created (m : List Byte) : absorb m ⟨iv, [], 0⟩ = ⟨streamChain m, streamTail m, BitVec.ofNat 64 m.length⟩ := by
  simp [absorb, streamChain, streamTail]

theorem standsFor_iff {x : Hasher} {m : List Byte} : StandsFor x m ↔ x = absorb m ⟨iv, [], 0⟩ := by
  rw [absorb_created]
  cases x; simp [StandsFor]

@[simp] theorem lengthSuffix_length (total : BitVec 64) : (lengthSuffix total).length = 8 := rfl

theorem zeroFill_short {l : Nat} (h : l ≤ 55) : zeroFill l = 55 - l := by
  unfold zeroFill; omega

theorem zeroFill_long {l : Nat} (h : 56 ≤ l) (h' : l ≤ 63) : zeroFill l = 119 - l := by
  unfold zeroFill; omega

theorem pad_length (buf : List Byte) (total : BitVec 64) : (pad buf total).length = buf.length + 9 + zeroFill buf.length := by
  simp [pad]; omega

theorem pad_length_short {buf : List Byte} (h : buf.length ≤ 55) (total : BitVec 64) : (pad buf total).length = 64 := by
  rw [pad_length, zeroFill_short h]; omega

theorem pad_length_long {buf : List Byte} (h : 56 ≤ buf.length) (h' : buf.length ≤ 63) (total : BitVec 64) :
    (pad buf total).length = 128 := by
  rw [pad_length, zeroFill_long h h']; omega

@[simp] theorem blockWords_length (blk : List Byte) : (blockWords blk).length = 16 := by simp [blockWords]

theorem blockWords_getD {blk : List Byte} {i : Nat} (h : i < 16) : (blockWords blk).getD i 0 = blockWord blk i := by
  simp [blockWords, List.getD, h]

/-- Only the first 64 bytes of a sequence are read as a block. -/
theorem blockWords_take (bs : List Byte) : blockWords (bs.take 64) = blockWords bs := by
  have hg : ∀ j, j < 64 → (bs.take 64).getD j 0 = bs.getD j 0 := by
    intro j hj; simp [List.getD, hj]
  unfold blockWords
  apply List.map_congr_left
  intro i hi
  have : i < 16 := by simpa using hi
  simp only [blockWord]
  rw [hg _ (by omega), hg _ (by omega), hg _ (by omega), hg _ (by omega)]

@[simp] theorem extendSchedule_length (n : Nat) (ws : List Word) : (extendSchedule n ws).length = ws.length + n := by
  induction n generalizing ws with
  | zero => rfl
  | succ n ih => simp [extendSchedule, ih]; omega

/-- Extending keeps the words there are. -/
theorem extendSchedule_keeps {n : Nat} {ws : List Word} {i : Nat} (h : i < ws.length) :
    (extendSchedule n ws).getD i 0 = ws.getD i 0 := by
  induction n generalizing ws with
  | zero => rfl
  | succ n ih =>
    rw [extendSchedule, ih (by simp; omega)]
    simp [List.getD, List.getElem?_append_left h]

/-- Every word that extending adds obeys the recurrence of R176. -/
theorem extendSchedule_recurrence {n : Nat} {ws : List Word} {i : Nat} (h16 : 16 ≤ ws.length) (hl : ws.length ≤ i)
    (hu : i < ws.length + n) :
    (extendSchedule n ws).getD i 0 =
      scheduleWord ((extendSchedule n ws).getD (i - 16) 0) ((extendSchedule n ws).getD (i - 15) 0)
        ((extendSchedule n ws).getD (i - 7) 0) ((extendSchedule n ws).getD (i - 2) 0) := by
  induction n generalizing ws with
  | zero => omega
  | succ n ih =>
    rw [extendSchedule]
    by_cases hi : i = ws.length
    · subst hi
      have hk : ∀ j, j ≤ ws.length → ∀ w, (extendSchedule n (ws ++ [w])).getD j 0 = (ws ++ [w]).getD j 0 :=
        fun j hj w => extendSchedule_keeps (by simp; omega)
      have ho : ∀ j, 0 < j → ∀ w, (ws ++ [w]).getD (ws.length - j) 0 = ws.getD (ws.length - j) 0 := by
        intro j hj w
        have hlt : ws.length - j < ws.length := by omega
        rw [List.getD_eq_getElem?_getD, List.getElem?_append_left hlt, ← List.getD_eq_getElem?_getD]
      simp only [hk _ (Nat.le_refl _), hk _ (Nat.sub_le _ _), ho 16 (by omega), ho 15 (by omega), ho 7 (by omega), ho 2 (by omega)]
      simp [List.getD]
    · exact ih (by simp; omega) (by simp; omega) (by simp; omega)

@[simp] theorem schedule_length (blk : List Byte) : (schedule blk).length = 64 := by simp [schedule]

theorem schedule_block {blk : List Byte} {i : Nat} (h : i < 16) : (schedule blk).getD i 0 = blockWord blk i := by
  rw [schedule, extendSchedule_keeps (by simpa using h), blockWords_getD h]

theorem schedule_step {blk : List Byte} {i : Nat} (h : 16 ≤ i) (h' : i < 64) :
    (schedule blk).getD i 0 =
      scheduleWord ((schedule blk).getD (i - 16) 0) ((schedule blk).getD (i - 15) 0) ((schedule blk).getD (i - 7) 0)
        ((schedule blk).getD (i - 2) 0) :=
  extendSchedule_recurrence (by simp) (by simpa using h) (by simpa using h')

@[simp] theorem kRom_length : kRom.length = 64 := rfl

/-- The pairs of the rounds, by index. -/
theorem rounds_snoc (v : Working) (kw : List (Word × Word)) (p : Word × Word) :
    rounds v (kw ++ [p]) = shaRound (rounds v kw) p.1 p.2 := by
  simp [rounds]

/-- Round t of a compression reads `K[t]` and `W[t]`. -/
theorem rounds_take_succ (v : Working) {ws : List Word} (hw : ws.length = 64) {t : Nat} (ht : t < 64) :
    rounds v ((kRom.zip ws).take (t + 1)) = shaRound (rounds v ((kRom.zip ws).take t)) (kAt t) (ws.getD t 0) := by
  have hl : t < (kRom.zip ws).length := by simp [hw, ht]
  rw [List.take_succ_eq_append_getElem hl, rounds_snoc]
  have hk : kRom[t]? = some (kRom[t]'(by simpa using ht)) := List.getElem?_eq_getElem (by simpa using ht)
  rw [List.getElem_zip, kAt, List.getD_eq_getElem?_getD, List.getD_eq_getElem?_getD, hk,
    List.getElem?_eq_getElem (by simpa [hw] using ht)]
  rfl

/-- All 64 rounds are those of the first 64 pairs. -/
theorem rounds_all (v : Working) {ws : List Word} (hw : ws.length = 64) :
    rounds v (kRom.zip ws) = rounds v ((kRom.zip ws).take 64) := by
  rw [List.take_of_length_le (by simp [hw])]

end Sys2Proof.Laws
end

