-- ==== Sys2Proof/Laws/State.lean ====
section
/-! SUPPORT. What each named operation leaves in each field of State: one lemma a field, so that no later proof unfolds a
record update. -/

namespace Sys2Proof.Laws

open Sys2Proof Sys2Proof.Machine

section
variable (s : State) (es : List Event)
@[simp] theorem withInputs_live : (s.withInputs es).live = s.live := rfl
@[simp] theorem withInputs_pend : (s.withInputs es).pend = s.pend := rfl
@[simp] theorem withInputs_dataIn : (s.withInputs es).dataIn = s.dataIn := rfl
@[simp] theorem withInputs_digest : (s.withInputs es).digest = s.digest := rfl
@[simp] theorem withInputs_dvalid : (s.withInputs es).dvalid = s.dvalid := rfl
@[simp] theorem withInputs_err : (s.withInputs es).err = s.err := rfl
@[simp] theorem withInputs_errcode : (s.withInputs es).errcode = s.errcode := rfl
@[simp] theorem withInputs_phase : (s.withInputs es).phase = s.phase := rfl
@[simp] theorem withInputs_seq : (s.withInputs es).seq = s.seq := rfl
@[simp] theorem withInputs_port : (s.withInputs es).port = ⟨es, s.port.rdata⟩ := rfl
end

section
variable (s : State) (v : Word)
@[simp] theorem withReadData_live : (s.withReadData v).live = s.live := rfl
@[simp] theorem withReadData_pend : (s.withReadData v).pend = s.pend := rfl
@[simp] theorem withReadData_dataIn : (s.withReadData v).dataIn = s.dataIn := rfl
@[simp] theorem withReadData_digest : (s.withReadData v).digest = s.digest := rfl
@[simp] theorem withReadData_dvalid : (s.withReadData v).dvalid = s.dvalid := rfl
@[simp] theorem withReadData_err : (s.withReadData v).err = s.err := rfl
@[simp] theorem withReadData_errcode : (s.withReadData v).errcode = s.errcode := rfl
@[simp] theorem withReadData_phase : (s.withReadData v).phase = s.phase := rfl
@[simp] theorem withReadData_seq : (s.withReadData v).seq = s.seq := rfl
@[simp] theorem withReadData_port : (s.withReadData v).port = ⟨s.port.inputs, v⟩ := rfl
end

section
variable (s : State)
@[simp] theorem acknowledgeError_live : (acknowledgeError s).live = s.live := rfl
@[simp] theorem acknowledgeError_pend : (acknowledgeError s).pend = s.pend := rfl
@[simp] theorem acknowledgeError_dataIn : (acknowledgeError s).dataIn = s.dataIn := rfl
@[simp] theorem acknowledgeError_digest : (acknowledgeError s).digest = s.digest := rfl
@[simp] theorem acknowledgeError_dvalid : (acknowledgeError s).dvalid = s.dvalid := rfl
@[simp] theorem acknowledgeError_err : (acknowledgeError s).err = false := rfl
@[simp] theorem acknowledgeError_errcode : (acknowledgeError s).errcode = 0 := rfl
@[simp] theorem acknowledgeError_phase : (acknowledgeError s).phase = s.phase := rfl
@[simp] theorem acknowledgeError_seq : (acknowledgeError s).seq = s.seq := rfl
@[simp] theorem acknowledgeError_port : (acknowledgeError s).port = s.port := rfl
end

section
variable (p : Pending) (s : State)
@[simp] theorem accept_live : (accept p s).live = s.live := rfl
@[simp] theorem accept_pend : (accept p s).pend = some p := rfl
@[simp] theorem accept_dataIn : (accept p s).dataIn = s.dataIn := rfl
@[simp] theorem accept_digest : (accept p s).digest = s.digest := rfl
@[simp] theorem accept_dvalid : (accept p s).dvalid = s.dvalid := rfl
@[simp] theorem accept_err : (accept p s).err = s.err := rfl
@[simp] theorem accept_errcode : (accept p s).errcode = s.errcode := rfl
@[simp] theorem accept_phase : (accept p s).phase = s.phase := rfl
@[simp] theorem accept_seq : (accept p s).seq = { s.seq with ctl := firstRow p } := rfl
@[simp] theorem accept_port : (accept p s).port = s.port := rfl
end

section
variable (s : State)
@[simp] theorem retire_live : (retire s).live = s.live := rfl
@[simp] theorem retire_pend : (retire s).pend = none := rfl
@[simp] theorem retire_dataIn : (retire s).dataIn = s.dataIn := rfl
@[simp] theorem retire_digest : (retire s).digest = s.digest := rfl
@[simp] theorem retire_dvalid : (retire s).dvalid = s.dvalid := rfl
@[simp] theorem retire_err : (retire s).err = s.err := rfl
@[simp] theorem retire_errcode : (retire s).errcode = s.errcode := rfl
@[simp] theorem retire_phase : (retire s).phase = s.phase := rfl
@[simp] theorem retire_seq : (retire s).seq = { s.seq with ctl := .idle } := rfl
@[simp] theorem retire_port : (retire s).port = s.port := rfl
end

section
variable (q : Phase) (s : State)
@[simp] theorem enterPhase_live : (enterPhase q s).live = s.live := rfl
@[simp] theorem enterPhase_pend : (enterPhase q s).pend = s.pend := rfl
@[simp] theorem enterPhase_dataIn : (enterPhase q s).dataIn = s.dataIn := rfl
@[simp] theorem enterPhase_digest : (enterPhase q s).digest = s.digest := rfl
@[simp] theorem enterPhase_dvalid : (enterPhase q s).dvalid = s.dvalid := rfl
@[simp] theorem enterPhase_err : (enterPhase q s).err = s.err := rfl
@[simp] theorem enterPhase_errcode : (enterPhase q s).errcode = s.errcode := rfl
@[simp] theorem enterPhase_phase : (enterPhase q s).phase = q := rfl
@[simp] theorem enterPhase_seq : (enterPhase q s).seq = s.seq := rfl
@[simp] theorem enterPhase_port : (enterPhase q s).port = s.port := rfl
end

section
variable (s : State)
@[simp] theorem beginFinalizing_live : (beginFinalizing s).live = s.live := rfl
@[simp] theorem beginFinalizing_pend : (beginFinalizing s).pend = s.pend := rfl
@[simp] theorem beginFinalizing_dataIn : (beginFinalizing s).dataIn = s.dataIn := rfl
@[simp] theorem beginFinalizing_digest : (beginFinalizing s).digest = s.digest := rfl
@[simp] theorem beginFinalizing_dvalid : (beginFinalizing s).dvalid = false := rfl
@[simp] theorem beginFinalizing_err : (beginFinalizing s).err = s.err := rfl
@[simp] theorem beginFinalizing_errcode : (beginFinalizing s).errcode = s.errcode := rfl
@[simp] theorem beginFinalizing_phase : (beginFinalizing s).phase = .finalizing := rfl
@[simp] theorem beginFinalizing_seq : (beginFinalizing s).seq = s.seq := rfl
@[simp] theorem beginFinalizing_port : (beginFinalizing s).port = s.port := rfl
end

section
variable (s : State)
@[simp] theorem completeNop_live : (completeNop s).live = s.live := rfl
@[simp] theorem completeNop_pend : (completeNop s).pend = s.pend := rfl
@[simp] theorem completeNop_dataIn : (completeNop s).dataIn = s.dataIn := rfl
@[simp] theorem completeNop_digest : (completeNop s).digest = s.digest := rfl
@[simp] theorem completeNop_dvalid : (completeNop s).dvalid = s.dvalid := rfl
@[simp] theorem completeNop_err : (completeNop s).err = s.err := rfl
@[simp] theorem completeNop_errcode : (completeNop s).errcode = s.errcode := rfl
@[simp] theorem completeNop_phase : (completeNop s).phase = s.phase := rfl
@[simp] theorem completeNop_seq : (completeNop s).seq = s.seq := rfl
@[simp] theorem completeNop_port : (completeNop s).port = s.port := rfl
end

section
variable (s : State)
@[simp] theorem completeInit_live : (completeInit s).live = ⟨iv, [], 0⟩ := rfl
@[simp] theorem completeInit_pend : (completeInit s).pend = s.pend := rfl
@[simp] theorem completeInit_dataIn : (completeInit s).dataIn = s.dataIn := rfl
@[simp] theorem completeInit_digest : (completeInit s).digest = zero8 := rfl
@[simp] theorem completeInit_dvalid : (completeInit s).dvalid = false := rfl
@[simp] theorem completeInit_err : (completeInit s).err = s.err := rfl
@[simp] theorem completeInit_errcode : (completeInit s).errcode = s.errcode := rfl
@[simp] theorem completeInit_phase : (completeInit s).phase = .accumulating := rfl
@[simp] theorem completeInit_seq : (completeInit s).seq = s.seq := rfl
@[simp] theorem completeInit_port : (completeInit s).port = s.port := rfl
end

section
variable (d : List Byte) (s : State)
@[simp] theorem completeUpdate_live : (completeUpdate d s).live = absorb d s.live := rfl
@[simp] theorem completeUpdate_pend : (completeUpdate d s).pend = s.pend := rfl
@[simp] theorem completeUpdate_dataIn : (completeUpdate d s).dataIn = s.dataIn := rfl
@[simp] theorem completeUpdate_digest : (completeUpdate d s).digest = s.digest := rfl
@[simp] theorem completeUpdate_dvalid : (completeUpdate d s).dvalid = dvalidAfterUpdate d s := rfl
@[simp] theorem completeUpdate_err : (completeUpdate d s).err = s.err := rfl
@[simp] theorem completeUpdate_errcode : (completeUpdate d s).errcode = s.errcode := rfl
@[simp] theorem completeUpdate_phase : (completeUpdate d s).phase = .accumulating := rfl
@[simp] theorem completeUpdate_seq : (completeUpdate d s).seq = s.seq := rfl
@[simp] theorem completeUpdate_port : (completeUpdate d s).port = s.port := rfl
end

section
variable (s : State)
@[simp] theorem completeDigest_live : (completeDigest s).live = s.live := rfl
@[simp] theorem completeDigest_pend : (completeDigest s).pend = s.pend := rfl
@[simp] theorem completeDigest_dataIn : (completeDigest s).dataIn = s.dataIn := rfl
@[simp] theorem completeDigest_digest : (completeDigest s).digest = finalize s.live.h s.live.buf s.live.totalLen := rfl
@[simp] theorem completeDigest_dvalid : (completeDigest s).dvalid = true := rfl
@[simp] theorem completeDigest_err : (completeDigest s).err = s.err := rfl
@[simp] theorem completeDigest_errcode : (completeDigest s).errcode = s.errcode := rfl
@[simp] theorem completeDigest_phase : (completeDigest s).phase = .accumulating := rfl
@[simp] theorem completeDigest_seq : (completeDigest s).seq = s.seq := rfl
@[simp] theorem completeDigest_port : (completeDigest s).port = s.port := rfl
end

section
variable (s : State)
@[simp] theorem cycle_live : (cycle s).live = s.live := rfl
@[simp] theorem cycle_pend : (cycle s).pend = s.pend := rfl
@[simp] theorem cycle_dataIn : (cycle s).dataIn = s.dataIn := rfl
@[simp] theorem cycle_digest : (cycle s).digest = s.digest := rfl
@[simp] theorem cycle_dvalid : (cycle s).dvalid = s.dvalid := rfl
@[simp] theorem cycle_err : (cycle s).err = s.err := rfl
@[simp] theorem cycle_errcode : (cycle s).errcode = s.errcode := rfl
@[simp] theorem cycle_phase : (cycle s).phase = s.phase := rfl
@[simp] theorem cycle_seq : (cycle s).seq = seqStep s := rfl
@[simp] theorem cycle_port : (cycle s).port = s.port := rfl
end

section
variable (s : State)
@[simp] theorem applyReset_live : (applyReset s).live = ⟨iv, [], 0⟩ := rfl
@[simp] theorem applyReset_pend : (applyReset s).pend = none := rfl
@[simp] theorem applyReset_dataIn : (applyReset s).dataIn = 0 := rfl
@[simp] theorem applyReset_digest : (applyReset s).digest = zero8 := rfl
@[simp] theorem applyReset_dvalid : (applyReset s).dvalid = false := rfl
@[simp] theorem applyReset_err : (applyReset s).err = false := rfl
@[simp] theorem applyReset_errcode : (applyReset s).errcode = 0 := rfl
@[simp] theorem applyReset_phase : (applyReset s).phase = .empty := rfl
@[simp] theorem applyReset_seq : (applyReset s).seq = Sequencer.reset := rfl
@[simp] theorem applyReset_port : (applyReset s).port = s.port := rfl
end

section
variable (c : InvalidInput) (s : State)
@[simp] theorem takeInvalidInput_live : (takeInvalidInput c s).live = s.live := by
  unfold takeInvalidInput; split <;> rfl
@[simp] theorem takeInvalidInput_pend : (takeInvalidInput c s).pend = s.pend := by
  unfold takeInvalidInput; split <;> rfl
@[simp] theorem takeInvalidInput_dataIn : (takeInvalidInput c s).dataIn = s.dataIn := by
  unfold takeInvalidInput; split <;> rfl
@[simp] theorem takeInvalidInput_digest : (takeInvalidInput c s).digest = s.digest := by
  unfold takeInvalidInput; split <;> rfl
@[simp] theorem takeInvalidInput_dvalid : (takeInvalidInput c s).dvalid = s.dvalid := by
  unfold takeInvalidInput; split <;> rfl
@[simp] theorem takeInvalidInput_phase : (takeInvalidInput c s).phase = s.phase := by
  unfold takeInvalidInput; split <;> rfl
@[simp] theorem takeInvalidInput_seq : (takeInvalidInput c s).seq = s.seq := by
  unfold takeInvalidInput; split <;> rfl
@[simp] theorem takeInvalidInput_port : (takeInvalidInput c s).port = s.port := by
  unfold takeInvalidInput; split <;> rfl
@[simp] theorem takeInvalidInput_err : (takeInvalidInput c s).err = true := by
  unfold takeInvalidInput; split <;> simp_all
@[simp] theorem takeInvalidInput_errcode : (takeInvalidInput c s).errcode = if s.err then s.errcode else c.code := by
  unfold takeInvalidInput; split <;> simp_all
end

end Sys2Proof.Laws
end

