-- ==== Sys2Proof/Laws/Ops.lean ====
section
/-! SUPPORT. What each shared operation does, said once: the exception, submission, the completion of a command. -/

namespace Sys2Proof.Laws

open Sys2Proof Sys2Proof.Machine

theorem busy_of_pend_none {s : State} (h : s.pend = none) : s.busy = false := by simp [State.busy, h]

theorem busy_of_pend_some {s : State} {p : Pending} (h : s.pend = some p) : s.busy = true := by simp [State.busy, h]

theorem busy_iff_pend {s : State} : s.busy = true ↔ s.pend ≠ none := by
  cases h : s.pend <;> simp [State.busy, h]

@[simp] theorem withInputs_self (s : State) : s.withInputs s.port.inputs = s := rfl

@[simp] theorem withInputs_withInputs (s : State) (es fs : List Event) :
    (s.withInputs es).withInputs fs = s.withInputs fs := rfl

@[simp] theorem withInputs_busy (s : State) (es : List Event) : (s.withInputs es).busy = s.busy := rfl

/-- The first cause is kept: with ERR set the exception changes nothing. -/
theorem takeInvalidInput_of_err {c : InvalidInput} {s : State} (h : s.err = true) : takeInvalidInput c s = s := by
  simp [takeInvalidInput, h]

/-- With ERR clear the exception writes ERR and ERRCODE and nothing else. -/
theorem takeInvalidInput_of_no_err {c : InvalidInput} {s : State} (h : s.err = false) :
    takeInvalidInput c s = { s with err := true, errcode := c.code } := by
  simp [takeInvalidInput, h]

/-- The exception in one form: all it can change is ERR and ERRCODE. -/
theorem takeInvalidInput_eq (c : InvalidInput) (s : State) :
    takeInvalidInput c s = { s with err := true, errcode := if s.err then s.errcode else c.code } := by
  cases h : s.err
  · simp [takeInvalidInput, h]
  · cases s; simp_all [takeInvalidInput]

theorem submit_idle {f : State → State} {s : State} (h : s.pend = none) : submit f s = f s := by
  simp [submit, busy_of_pend_none h]

theorem submit_busy {f : State → State} {s : State} (h : s.pend ≠ none) : submit f s = takeInvalidInput .busy s := by
  simp [submit, busy_iff_pend.mpr h]

/-- The pending record a command leaves when it is accepted. -/
def recordOf (s : State) : Instr → Pending
  | .nop => .nop
  | .init => .init
  | .update nb => .update (latchedBytes nb s)
  | .digest => .digest

/-- Every command answers a next state. -/
theorem exec_answers (i : Instr) (s : State) : ∃ t, exec i s = .next t := by
  cases i <;> exact ⟨_, rfl⟩

/-- A command at a busy engine takes code 4. -/
theorem exec_busy {s : State} (h : s.pend ≠ none) (i : Instr) : exec i s = .next (takeInvalidInput .busy s) := by
  cases i <;> simp [exec, execNop, execInit, execUpdate, execDigest, submit_busy h]

/-- A well-formed command at an idle engine is accepted; DIGEST also clears DVALID and enters FINALIZING. -/
theorem exec_idle {s : State} (h : s.pend = none) {i : Instr} (hi : i.wf = true) :
    exec i s = .next (if i = .digest then beginFinalizing (accept .digest s) else accept (recordOf s i) s) := by
  cases i <;> simp_all [exec, execNop, execInit, execUpdate, execDigest, submit_idle h, recordOf, Instr.wf]

/-- An UPDATE whose NB is out of range takes code 1 at an idle engine. -/
theorem exec_update_bad {s : State} (h : s.pend = none) {nb : BitVec 3} (hn : 4 < nb.toNat) :
    exec (.update nb) s = .next (takeInvalidInput .badNb s) := by
  have h4 : ¬ nb.toNat ≤ 4 := by omega
  simp [exec, execUpdate, submit_idle h, h4]

/-- All that a submission can do: take the exception, or be accepted by an idle engine. -/
theorem exec_cases {i : Instr} {s t : State} (h : exec i s = .next t) :
    (s.pend ≠ none ∧ t = takeInvalidInput .busy s) ∨
    (s.pend = none ∧ i.wf = false ∧ t = takeInvalidInput .badNb s) ∨
    (s.pend = none ∧ i = .digest ∧ t = beginFinalizing (accept .digest s)) ∨
    (s.pend = none ∧ i.wf = true ∧ i ≠ .digest ∧ t = accept (recordOf s i) s) := by
  by_cases hp : s.pend = none
  · by_cases hi : i.wf = true
    · rw [exec_idle hp hi] at h
      by_cases hd : i = .digest
      · simp_all
      · simp_all
    · cases i <;> simp [Instr.wf] at hi
      rw [exec_update_bad hp hi] at h
      simp_all [Instr.wf]
  · rw [exec_busy hp] at h
    simp_all

section
variable (p : Pending) (s : State)

@[simp] theorem complete_pend : (complete p s).pend = none := by cases p <;> rfl
@[simp] theorem complete_dataIn : (complete p s).dataIn = s.dataIn := by cases p <;> rfl
@[simp] theorem complete_err : (complete p s).err = s.err := by cases p <;> rfl
@[simp] theorem complete_errcode : (complete p s).errcode = s.errcode := by cases p <;> rfl
@[simp] theorem complete_port : (complete p s).port = s.port := by cases p <;> rfl
@[simp] theorem complete_seq : (complete p s).seq = { s.seq with ctl := .idle } := by cases p <;> rfl

@[simp] theorem complete_nop_live : (complete .nop s).live = s.live := rfl
@[simp] theorem complete_init_live : (complete .init s).live = ⟨iv, [], 0⟩ := rfl
@[simp] theorem complete_update_live (d : List Byte) : (complete (.update d) s).live = absorb d s.live := rfl
@[simp] theorem complete_digest_live : (complete .digest s).live = s.live := rfl

@[simp] theorem complete_nop_digest : (complete .nop s).digest = s.digest := rfl
@[simp] theorem complete_init_digest : (complete .init s).digest = zero8 := rfl
@[simp] theorem complete_update_digest (d : List Byte) : (complete (.update d) s).digest = s.digest := rfl
@[simp] theorem complete_digest_digest :
    (complete .digest s).digest = finalize s.live.h s.live.buf s.live.totalLen := rfl

@[simp] theorem complete_nop_dvalid : (complete .nop s).dvalid = s.dvalid := rfl
@[simp] theorem complete_init_dvalid : (complete .init s).dvalid = false := rfl
@[simp] theorem complete_update_dvalid (d : List Byte) :
    (complete (.update d) s).dvalid = if 1 ≤ d.length then false else s.dvalid := rfl
@[simp] theorem complete_digest_dvalid : (complete .digest s).dvalid = true := rfl

@[simp] theorem complete_nop_phase : (complete .nop s).phase = s.phase := rfl
@[simp] theorem complete_init_phase : (complete .init s).phase = .accumulating := rfl
@[simp] theorem complete_update_phase (d : List Byte) : (complete (.update d) s).phase = .accumulating := rfl
@[simp] theorem complete_digest_phase : (complete .digest s).phase = .accumulating := rfl
end

theorem engineStep_idle {s : State} (h : s.pend = none) : engineStep s = s := by simp [engineStep, h]

theorem engineStep_pending {s : State} {p : Pending} (h : s.pend = some p) : engineStep s = complete p s := by
  simp [engineStep, h]

/-- After the engine's step nothing is pending. -/
@[simp] theorem engineStep_pend (s : State) : (engineStep s).pend = none := by
  cases h : s.pend
  · simp [engineStep_idle h, h]
  · simp [engineStep_pending h]

@[simp] theorem engineStep_port (s : State) : (engineStep s).port = s.port := by
  cases h : s.pend
  · simp [engineStep_idle h]
  · simp [engineStep_pending h]

/-- The engine's step neither reads nor writes ERR and ERRCODE. -/
theorem engineStep_errs (s : State) (e : Bool) (c : BitVec 3) :
    engineStep { s with err := e, errcode := c } = { engineStep s with err := e, errcode := c } := by
  obtain ⟨live, pend, dataIn, digest, dvalid, err, errcode, phase, seq, port⟩ := s
  cases pend with
  | none => rfl
  | some p => cases p <;> rfl

/-- What a completion writes depends on H, BUF, TOTAL_LEN, DIGEST0..7, DVALID and PHASE alone. -/
theorem complete_congr {s t : State} (p : Pending) (h1 : t.live = s.live) (h2 : t.digest = s.digest)
    (h3 : t.dvalid = s.dvalid) (h4 : t.phase = s.phase) :
    (complete p t).live = (complete p s).live ∧ (complete p t).digest = (complete p s).digest ∧
      (complete p t).dvalid = (complete p s).dvalid ∧ (complete p t).phase = (complete p s).phase := by
  cases p <;> simp [h1, h2, h3, h4]

/-- Every cause has a code from 1 to 4. -/
theorem code_range (c : InvalidInput) : c.code ≠ 0 ∧ c.code.toNat ≤ 4 := by cases c <;> decide

/-- BUSY is bit 0 of STATUS. -/
theorem statusWord_bit0 (s : State) : (statusWord s).getLsbD 0 = s.busy := by
  cases h : s.busy <;> simp [statusWord, bitWord, h]

end Sys2Proof.Laws
end

