-- ==== Sys2Proof/Laws/PerInstr.lean ====
section
/-! SUPPORT. For every command, about it as syntax: the word it encodes to has the fields of the format where R80 puts them. -/

namespace Sys2Proof.Laws.WordFields

open Sys2Proof

/-- The OP value of a command (R81). -/
def opOf : Instr → BitVec 4
  | .nop => 0x0
  | .init => 0x1
  | .update _ => 0x2
  | .digest => 0x3

/-- The NB value of a command (R82). -/
def nbOf : Instr → BitVec 3
  | .nop => 0
  | .init => 0
  | .update nb => nb
  | .digest => 0

/-- OP and NB are the command's and RSVD is zero (R80 to R83), whatever NB is. -/
def Statement (i : Instr) : Prop :=
  opField (encode i) = opOf i ∧ nbField (encode i) = nbOf i ∧ rsvdField (encode i) = 0

theorem nop : Statement .nop := by unfold Statement; decide

theorem init : Statement .init := by unfold Statement; decide

theorem update (nb : BitVec 3) : Statement (.update nb) := by
  unfold Statement; revert nb; decide

theorem digest : Statement .digest := by unfold Statement; decide

end Sys2Proof.Laws.WordFields
end

