-- ==== Sys2Proof/Laws/Sequencer.lean ====
section
/-! SUPPORT. Runs of internal steps: they compose, and they touch hidden state alone. -/

namespace Sys2Proof.Laws

open Sys2Proof Sys2Proof.Machine

theorem cycles_add (m n : Nat) (s : State) : cycles (m + n) s = cycles n (cycles m s) := by
  induction m generalizing s with
  | zero => simp [cycles]
  | succ m ih => rw [Nat.add_right_comm, cycles, ih]; rfl

/-- The last of the steps taken apart. -/
theorem cycles_succ (n : Nat) (s : State) : cycles (n + 1) s = cycle (cycles n s) := cycles_add n 1 s

/-- All that internal steps can do: the hidden state changes. -/
theorem cycles_frame (n : Nat) (s : State) : cycles n s = { s with seq := (cycles n s).seq } := by
  induction n generalizing s with
  | zero => rfl
  | succ n ih => rw [cycles_succ, ih]; rfl

@[simp] theorem cycles_pend (n : Nat) (s : State) : (cycles n s).pend = s.pend := by rw [cycles_frame]

@[simp] theorem cycles_live (n : Nat) (s : State) : (cycles n s).live = s.live := by rw [cycles_frame]

/-- No row of the table but DONE's end goes back to IDLE: a pending command keeps the sequencer out of it. -/
theorem seqStep_idle {s : State} (h : s.seq.ctl = .idle ↔ s.pend = none) : (seqStep s).ctl = .idle ↔ s.pend = none := by
  cases hp : s.pend with
  | none => simpa [seqStep, hp] using h
  | some p =>
    have hf : firstRow p ≠ .idle := by cases p <;> simp [firstRow]
    have ha : ∀ t, afterRound t ≠ .idle := by intro t; unfold afterRound; split <;> simp
    simp only [hp] at h
    cases hc : s.seq.ctl <;> simp only [seqStep, hp, hc] <;> simp_all [seqAppend, seqLoad, seqRound, seqAdd] <;> split <;> simp
    split <;> simp

end Sys2Proof.Laws
end

