-- ==== Sys2Proof/Laws/Step.lean ====
section
/-! SUPPORT. What a step can do, said once: the outcomes of a host access and of a step, from which every statement about
all steps is a short case analysis. -/

namespace Sys2Proof.Laws

open Sys2Proof Sys2Proof.Machine

theorem step_nil {s : State} (h : s.port.inputs = []) : step s = .next (engineStep s) := by
  simp [step, nextStep, h]

theorem step_cons {s : State} {e : Event} {rest : List Event} (h : s.port.inputs = e :: rest) :
    step s = runEvent e (s.withInputs rest) := by
  simp [step, nextStep, h]

theorem accessProblem_none {w : Width} {off : Nat} :
    accessProblem w off = none ↔ w = .w32 ∧ off % 4 = 0 ∧ off < 0x40 := by
  unfold accessProblem
  by_cases hw : w = .w32 <;> by_cases ho : off % 4 = 0 <;> by_cases hl : off < 0x40 <;>
    simp [hw, ho, hl, Config.windowBytes]

theorem hostAccess_read {s : State} {off : Nat} (h4 : off % 4 = 0) (h : off < 0x40) :
    hostAccess (.read .w32 off) s = .next (s.withReadData (readReg s (regAt off))) := by
  simp [hostAccess, accessProblem_none.mpr ⟨rfl, h4, h⟩]

theorem hostAccess_write {s : State} {off : Nat} {v : Word} (h4 : off % 4 = 0) (h : off < 0x40) :
    hostAccess (.write .w32 off v) s = writeReg v s (regAt off) := by
  simp [hostAccess, accessProblem_none.mpr ⟨rfl, h4, h⟩]

theorem regAt_cmd {off : Nat} (h : regAt off = .cmd) : off = 0x00 := by
  unfold regAt at h; repeat (split at h <;> try simp_all)

theorem regAt_status {off : Nat} (h : regAt off = .status) : off = 0x04 := by
  unfold regAt at h; repeat (split at h <;> try simp_all)

theorem regAt_dataIn {off : Nat} (h : regAt off = .dataIn) : off = 0x08 := by
  unfold regAt at h; repeat (split at h <;> try simp_all)

/-- The CMD write of a decoded word runs its command, busy or not: at a busy engine both take code 4. -/
theorem writeCmd_decoded {v : Word} {i : Instr} (h : decode v = .ok i) (s : State) : writeCmd v s = exec i s := by
  by_cases hp : s.pend = none
  · simp [writeCmd, decodeCommand, busy_of_pend_none hp, h]
  · simp [writeCmd, decodeCommand, busy_iff_pend.mpr hp, exec_busy hp]

/-- The CMD write of a rejected word takes the exception. -/
theorem writeCmd_rejected {v : Word} {c : InvalidInput} {s : State} (h : decodeCommand v s.busy = .error c) :
    writeCmd v s = .next (takeInvalidInput c s) := by
  simp [writeCmd, h]

/-- The test of NB passes a command on unchanged, and only a well-formed one. -/
theorem checkNb_ok {nb : BitVec 3} {i j : Instr} (h : checkNb nb j = .ok i) : i = j ∧ i.wf = true := by
  cases j <;> simp only [checkNb] at h <;> split at h <;> simp_all [Instr.wf] <;>
    obtain rfl := h <;> simp_all

/-- A word the decoder accepts is a well-formed command. -/
theorem decode_wf {v : Word} {i : Instr} (h : decode v = .ok i) : i.wf = true := by
  unfold decode at h
  split at h
  · simp at h
  · split at h
    · simp at h
    · exact (checkNb_ok h).2

/-- All that a CMD write can do. -/
theorem writeCmd_cases {v : Word} {s t : State} (h : writeCmd v s = .next t) :
    (∃ c, decodeCommand v s.busy = .error c ∧ t = takeInvalidInput c s) ∨
    (s.pend = none ∧ t = beginFinalizing (accept .digest s)) ∨
    (∃ i, s.pend = none ∧ i ≠ .digest ∧ i.wf = true ∧ t = accept (recordOf s i) s) := by
  unfold writeCmd at h
  split at h
  · rename_i c hc
    exact .inl ⟨c, hc, by cases h; rfl⟩
  · rename_i i hi
    have hidle : s.pend = none := by
      by_contra hb
      simp [decodeCommand, busy_iff_pend.mpr hb] at hi
    have hwf : i.wf = true := decode_wf (by simpa [decodeCommand, busy_of_pend_none hidle] using hi)
    rcases exec_cases h with ⟨hp, -⟩ | ⟨-, hw, -⟩ | ⟨-, -, ht⟩ | ⟨-, -, hd, ht⟩
    · exact absurd hidle hp
    · simp [hwf] at hw
    · exact .inr (.inl ⟨hidle, ht⟩)
    · exact .inr (.inr ⟨i, hidle, hd, hwf, ht⟩)

/-- All that a host access can do, when it answers a next state. -/
theorem hostAccess_cases {a : Access} {s t : State} (h : hostAccess a s = .next t) :
    (∃ off, a = .read .w32 off ∧ t = s.withReadData (readReg s (regAt off))) ∨
    (∃ v, a = .write .w32 0x00 v ∧ writeCmd v s = .next t) ∨
    (∃ v, a = .write .w32 0x04 v ∧ t = writeStatus v s) ∨
    (∃ v, a = .write .w32 0x08 v ∧ t = { s with dataIn := v }) ∨
    (∃ off v, a = .write .w32 off v ∧ off ≠ 0x00 ∧ t = s) := by
  cases a with
  | read w off =>
    cases hp : accessProblem w off with
    | some r => simp [hostAccess, hp] at h
    | none =>
      obtain ⟨rfl, -, -⟩ := accessProblem_none.mp hp
      exact .inl ⟨off, rfl, by simpa [hostAccess, hp] using h.symm⟩
  | write w off v =>
    cases hp : accessProblem w off with
    | some r => simp [hostAccess, hp] at h
    | none =>
      obtain ⟨rfl, -, -⟩ := accessProblem_none.mp hp
      simp only [hostAccess, hp] at h
      have hz : regAt off ≠ .cmd → off ≠ 0x00 := fun hr h0 => hr (by simp [h0, regAt])
      cases hr : regAt off <;> simp only [hr, writeReg] at h
      · obtain rfl := regAt_cmd hr
        exact .inr (.inl ⟨v, rfl, h⟩)
      · obtain rfl := regAt_status hr
        exact .inr (.inr (.inl ⟨v, rfl, by cases h; rfl⟩))
      · obtain rfl := regAt_dataIn hr
        exact .inr (.inr (.inr (.inl ⟨v, rfl, by cases h; rfl⟩)))
      all_goals exact .inr (.inr (.inr (.inr ⟨off, v, rfl, hz (by simp [hr]), by cases h; rfl⟩)))

/-- A legal access answers a next state. -/
theorem hostAccess_answers {a : Access} (h : legalAccess a = true) (s : State) : ∃ t, hostAccess a s = .next t := by
  cases a with
  | read w off =>
    simp [legalAccess] at h
    obtain ⟨⟨rfl, h4⟩, hl⟩ := h
    exact ⟨_, hostAccess_read h4 hl⟩
  | write w off v =>
    simp [legalAccess] at h
    obtain ⟨⟨rfl, h4⟩, hl⟩ := h
    rw [hostAccess_write h4 hl]
    cases regAt off <;> try exact ⟨_, rfl⟩
    show ∃ t, writeCmd v s = .next t
    cases hd : decodeCommand v s.busy with
    | error c => exact ⟨_, writeCmd_rejected hd⟩
    | ok i =>
      obtain ⟨t, ht⟩ := exec_answers i s
      exact ⟨t, by simp [writeCmd, hd, ht]⟩

/-- All that a step can do, when it answers a next state: the engine completes, or a host access, or an internal step, or
reset. -/
theorem step_cases {s t : State} (h : step s = .next t) :
    (s.port.inputs = [] ∧ t = engineStep s) ∨
    (∃ a rest, s.port.inputs = .access a :: rest ∧ hostAccess a (s.withInputs rest) = .next t) ∨
    (∃ rest, s.port.inputs = .complete :: rest ∧ t = engineStep (s.withInputs rest)) ∨
    (∃ rest, s.port.inputs = .cycle :: rest ∧ t = cycle (s.withInputs rest)) ∨
    (∃ rest, s.port.inputs = .reset :: rest ∧ t = applyReset (s.withInputs rest)) := by
  match hi : s.port.inputs with
  | [] => rw [step_nil hi] at h; cases h; exact .inl ⟨rfl, rfl⟩
  | .access a :: rest => rw [step_cons hi] at h; exact .inr (.inl ⟨a, rest, rfl, h⟩)
  | .complete :: rest => rw [step_cons hi] at h; cases h; exact .inr (.inr (.inl ⟨rest, rfl, rfl⟩))
  | .cycle :: rest => rw [step_cons hi] at h; cases h; exact .inr (.inr (.inr (.inl ⟨rest, rfl, rfl⟩)))
  | .reset :: rest => rw [step_cons hi] at h; cases h; exact .inr (.inr (.inr (.inr ⟨rest, rfl, rfl⟩)))

/-- While a command is pending a host access leaves the pending command, H, BUF, TOTAL_LEN, DIGEST, DVALID, PHASE and the
steps to come as they are. -/
theorem hostAccess_pending {a : Access} {s t : State} {p : Pending} (hp : s.pend = some p)
    (h : hostAccess a s = .next t) :
    t.pend = some p ∧ t.live = s.live ∧ t.digest = s.digest ∧ t.dvalid = s.dvalid ∧ t.phase = s.phase ∧
      t.port.inputs = s.port.inputs := by
  rcases hostAccess_cases h with ⟨off, -, rfl⟩ | ⟨v, -, hw⟩ | ⟨v, -, rfl⟩ | ⟨v, -, rfl⟩ | ⟨off, v, -, -, rfl⟩
  · simp [hp]
  · rcases writeCmd_cases hw with ⟨c, -, rfl⟩ | ⟨hn, -⟩ | ⟨i, hn, -⟩
    · simp [hp]
    · simp [hp] at hn
    · simp [hp] at hn
  · unfold writeStatus; split <;> simp [hp]
  · simp [hp]
  · simp [hp]

/-- No host access touches H, BUF, TOTAL_LEN, DIGEST or the steps to come. -/
theorem hostAccess_frame {a : Access} {s t : State} (h : hostAccess a s = .next t) :
    t.live = s.live ∧ t.digest = s.digest ∧ t.port.inputs = s.port.inputs := by
  rcases hostAccess_cases h with ⟨off, -, rfl⟩ | ⟨v, -, hw⟩ | ⟨v, -, rfl⟩ | ⟨v, -, rfl⟩ | ⟨off, v, -, -, rfl⟩
  · simp
  · rcases writeCmd_cases hw with ⟨c, -, rfl⟩ | ⟨-, rfl⟩ | ⟨i, -, -, -, rfl⟩ <;> simp
  · unfold writeStatus; split <;> simp
  · simp
  · simp

/-- A CMD write at the head of the inputs is that write. -/
theorem step_cmdWrite {s : State} {v : Word} {rest : List Event}
    (h : s.port.inputs = .access (.write .w32 0x00 v) :: rest) : step s = writeCmd v (s.withInputs rest) := by
  rw [step_cons h]; rfl

/-- A step uses up one input. -/
theorem step_inputs {s t : State} {e : Event} {rest : List Event} (hi : s.port.inputs = e :: rest) (h : step s = .next t) :
    t.port.inputs = rest := by
  rw [step_cons hi] at h
  cases e with
  | access a => rw [(hostAccess_frame h).2.2]; rfl
  | complete => cases h; simp
  | reset => cases h; rfl
  | cycle => cases h; rfl

/-- The first step of a run taken apart. -/
theorem run_step {n : Nat} {s t : State} (h : step s = .next t) :
    Host.Core.run Sys2Proof.core (n + 1) s = Host.Core.run Sys2Proof.core n t := by
  have key : ∀ (M : Host.Core) (s t : M.State) (n : Nat), M.step s = .next t → M.run (n + 1) s = M.run n t := by
    intro M s t n h
    rw [Host.Core.run, h]
  exact key Sys2Proof.core s t n h

end Sys2Proof.Laws
end

