-- ==== Sys2Proof/Laws/Words.lean ====
section
/-! SUPPORT. Byte order and the datapath operations, as numbers and bit by bit. -/

namespace Sys2Proof.Laws

open Sys2Proof Sys2Proof.Machine

/-- A big-endian word as a number. -/
theorem be32_toNat (a b c d : Byte) :
    (be32 a b c d).toNat = a.toNat * 2 ^ 24 + b.toNat * 2 ^ 16 + c.toNat * 2 ^ 8 + d.toNat := by
  unfold be32
  rw [BitVec.toNat_append, BitVec.toNat_append, BitVec.toNat_append, ← Nat.shiftLeft_add_eq_or_of_lt d.isLt,
    ← Nat.shiftLeft_add_eq_or_of_lt c.isLt, ← Nat.shiftLeft_add_eq_or_of_lt b.isLt]
  simp only [Nat.shiftLeft_eq]; omega

/-- The bytes of a big-endian word are those it was made of. -/
theorem bytes32_be32 (a b c d : Byte) : bytes32 (be32 a b c d) = [a, b, c, d] := by
  have := a.isLt; have := b.isLt; have := c.isLt; have := d.isLt
  simp only [bytes32, List.cons.injEq, and_true]
  refine ⟨?_, ?_, ?_, ?_⟩ <;> apply BitVec.eq_of_toNat_eq <;>
    simp only [BitVec.extractLsb'_toNat, be32_toNat, Nat.shiftRight_eq_div_pow] <;> omega

@[simp] theorem bytes32_length (w : Word) : (bytes32 w).length = 4 := rfl

/-- A logical right shift bit by bit. -/
theorem shr_getLsbD (x : Word) (n i : Nat) : (shr x n).getLsbD i = (decide (i + n < 32) && x.getLsbD (i + n)) := by
  unfold shr
  by_cases h : i + n < 32
  · simp only [BitVec.getLsbD_ushiftRight, h, decide_true, Bool.true_and, Nat.add_comm n i]
  · simp [h, Nat.add_comm n i]; exact BitVec.getLsbD_of_ge _ _ (by omega)

/-- The adder chain takes its terms one by one. -/
theorem add32_cons (x : Word) (xs : List Word) : add32 (x :: xs) = x + add32 xs := by
  have key : ∀ (a : Word) (ys : List Word), ys.foldl (· + ·) a = a + ys.foldl (· + ·) 0 := by
    intro a ys
    induction ys generalizing a with
    | nil => simp
    | cons y ys ih => simp only [List.foldl_cons]; rw [ih (a + y), ih (0 + y)]; simp [BitVec.add_assoc]
  simp only [add32, List.foldl_cons]
  rw [key]; simp

/-- A schedule word as a sum in the order of R176. -/
theorem scheduleWord_eq (w16 w15 w7 w2 : Word) :
    scheduleWord w16 w15 w7 w2 = w16 + smallSigma0 w15 + w7 + smallSigma1 w2 := by
  simp [scheduleWord, add32]

end Sys2Proof.Laws
end

