-- ==== Sys2Proof/Tests/Slice0.lean ====
section
/-! SUPPORT. Tests against the vectors of spec/95_test_vectors.md and hand calculation from the rules, and for every
statement with hypotheses a witness that meets them. Sections named in comments are those of 95_test_vectors.md. -/

namespace Sys2Proof.Tests

open Sys2Proof Sys2Proof.Machine

/-! ## Helpers -/

/-- n bytes 0x61. -/
def as (n : Nat) : List Byte := List.replicate n 0x61#8

/-- Mid-message: the buffer holds n bytes 0x61 and that is all there has been. -/
def midMessage (n : Nat) : State :=
  { State.reset with live := ⟨iv, as n, BitVec.ofNat 64 n⟩, dataIn := 0x61626364#32, phase := .accumulating }

/-- The state with `e` as the one step to come. -/
def facing (e : Event) (s : State) : State := s.withInputs [e]

/-- A CMD write. -/
def cmdWrite (v : Word) : Event := .access (.write .w32 0x00 v)

/-- The state a next outcome holds. -/
def nextOf (o : Host.Outcome State Fault Refusal) : Option State :=
  match o with
  | .next t => some t
  | .fault _ => none
  | .refused _ => none

/-- What STATUS reads after a step. -/
def statusAfter (s : State) : Option Word := (nextOf (step s)).map statusWord

/-! ## Well-formed terms (30_encoding.md R82) -/

theorem test_wf_refuses_nb5 : Instr.wf (.update 5#3) = false := by decide
theorem test_wf_refuses_nb6 : Instr.wf (.update 6#3) = false := by decide
theorem test_wf_refuses_nb7 : Instr.wf (.update 7#3) = false := by decide
theorem test_wf_takes_nb4 : Instr.wf (.update 4#3) = true := by decide

/-! ## Decoding (section 8): the words bit by bit, RSVD NB OP -/

theorem test_decode_nop : decode (0b0000000000000000000000000#25 ++ 0b000#3 ++ 0b0000#4) = .ok .nop := by decide
theorem test_decode_init : decode (0b0000000000000000000000000#25 ++ 0b000#3 ++ 0b0001#4) = .ok .init := by decide
theorem test_decode_update3 :
    decode (0b0000000000000000000000000#25 ++ 0b011#3 ++ 0b0010#4) = .ok (.update 3) := by decide
theorem test_decode_digest : decode (0b0000000000000000000000000#25 ++ 0b000#3 ++ 0b0011#4) = .ok .digest := by decide
theorem test_decode_opcode_before_rsvd : decode 0xffffffff#32 = .error .badOp := by decide
theorem test_decode_rsvd_before_nb : decode 0x000000f2#32 = .error .rsvdBits := by decide
theorem test_decode_nb_on_digest : decode 0x00000013#32 = .error .rsvdBits := by decide
theorem test_decode_top_bit : decode 0x80000002#32 = .error .rsvdBits := by decide
theorem test_decode_busy_first : decodeCommand 0x00000085#32 true = .error .busy := by decide
theorem test_table_word_update4 : decodeTableWord 32 0x42 = some (.update 4) := by decide
theorem test_table_word_bad_nb : decodeTableWord 32 0x52 = none := by decide

/-! ## Steps (sections 10.1, 11 and 12): what STATUS reads after one step -/

theorem test_nop_accepted : statusAfter (facing (cmdWrite 0x0#32) State.reset) = some 0x00000001#32 := by decide
theorem test_nop_keeps_empty : statusAfter (accept .nop State.reset) = some 0x00000000#32 := by decide
theorem test_init_accepted : statusAfter (facing (cmdWrite 0x1#32) (midMessage 3)) = some 0x00030101#32 := by decide
theorem test_init_completes : statusAfter (accept .init (midMessage 3)) = some 0x00000100#32 := by decide
theorem test_update_accepted : statusAfter (facing (cmdWrite 0x12#32) State.reset) = some 0x00000001#32 := by decide
theorem test_update_completes : statusAfter (accept (.update [0x61]) State.reset) = some 0x00010100#32 := by decide
theorem test_digest_accepted : statusAfter (facing (cmdWrite 0x3#32) (midMessage 1)) = some 0x00010201#32 := by decide
theorem test_digest_completes :
    ((nextOf (step (beginFinalizing (accept .digest (midMessage 1))))).map (fun t => (statusWord t, t.digest.w0))) =
      some (0x00010102#32, 0xca978112#32) := by decide +kernel
theorem test_fetch_word_runs : statusAfter (State.reset.withFetchWord 32 0x42) = some 0x00000001#32 := by decide
theorem test_bad_nb_code : statusAfter (facing (cmdWrite 0x52#32) State.reset) = some 0x00000014#32 := by decide
theorem test_first_cause_kept :
    statusAfter (facing (cmdWrite 0x85#32) { State.reset with err := true, errcode := 1 }) = some 0x00000014#32 := by decide
theorem test_busy_code :
    statusAfter (facing (cmdWrite 0x1#32) (beginFinalizing (accept .digest (midMessage 2)))) = some 0x00020245#32 := by decide
theorem test_status_write_clears :
    statusAfter (facing (.access (.write .w32 0x04 0x00000004#32)) { midMessage 2 with err := true, errcode := 1 }) =
      some 0x00020100#32 := by decide
theorem test_status_write_bit2_clear :
    statusAfter (facing (.access (.write .w32 0x04 0xfffffffb#32)) { midMessage 2 with err := true, errcode := 1 }) =
      some 0x00020114#32 := by decide
theorem test_latched_two : latchedBytes 2 (midMessage 0) = [0x61#8, 0x62#8] := by decide
theorem test_read_length_high :
    ((nextOf (step (facing (.access (.read .w32 0x14)) { State.reset with live := ⟨iv, [], 0x0123456789abcdc0#64⟩ }))).map
      (fun t => t.port.rdata)) = some 0x01234567#32 := by decide

/-! ## Datapath, padding and digests (sections 2, 5, 7, 10.2) -/

theorem test_sigmas :
    smallSigma0 0x12345678#32 = 0xe7fce6ee#32 ∧ smallSigma1 0x12345678#32 = 0xa1f78649#32 ∧
    bigSigma0 0x12345678#32 = 0x66146474#32 ∧ bigSigma1 0x12345678#32 = 0x3561abda#32 := by decide
theorem test_ch_maj :
    ch 0x510e527f#32 0x9b05688c#32 0x1f83d9ab#32 = 0x1f85c98c#32 ∧
    maj 0x6a09e667#32 0xbb67ae85#32 0x3c6ef372#32 = 0x3a6fe667#32 := by decide
theorem test_five_term_wrap : add32 (List.replicate 5 0xffffffff#32) = 0xfffffffb#32 := by decide
theorem test_schedule_last : (schedule (pad [0x61, 0x62, 0x63] 3)).getD 63 0 = 0x12b1edeb#32 := by decide +kernel
theorem test_zero_fill : zeroFill 0 = 55 ∧ zeroFill 55 = 0 ∧ zeroFill 56 = 63 ∧ zeroFill 63 = 56 := by decide
theorem test_suffix_drops_top_bits : lengthSuffix 0x2000000000000001#64 = [0, 0, 0, 0, 0, 0, 0, 8] := by decide
theorem test_block_completed :
    absorb [0x65, 0x66, 0x67, 0x68] ⟨iv, as 60 ++ [0x62, 0x63, 0x64], 63⟩ =
      ⟨⟨0x7d7de5b8#32, 0x100fda2f#32, 0x16b34e64#32, 0x790ef0dd#32, 0x92d5e491#32, 0x3ddd6b4d#32, 0xf0a6a23c#32, 0xa71a00f0#32⟩,
        [0x66, 0x67, 0x68], 67⟩ := by decide +kernel
theorem test_digest_two_pad_blocks :
    sha256 (as 56) =
      ⟨0xb35439a4#32, 0xac6f0948#32, 0xb6d6f9e3#32, 0xc6af0f5f#32, 0x590ce20f#32, 0x1bde7090#32, 0xef797068#32, 0x6ec6738a#32⟩ := by
  decide +kernel
theorem test_digest_block_and_two_pad_blocks :
    sha256 (as 120) =
      ⟨0x2f3d3354#32, 0x32c70b58#32, 0x0af0e8e1#32, 0xb3674a7c#32, 0x020d683a#32, 0xa5f73aaa#32, 0xedfdc55a#32, 0xf904c21c#32⟩ := by
  decide +kernel
theorem test_finalize_longest_total :
    finalize iv [] 0xffffffffffffffff#64 =
      ⟨0xf17c3da6#32, 0x95c8a5ed#32, 0xfc749881#32, 0xd8289ebd#32, 0x6fa2271e#32, 0xddeca4df#32, 0x72234b5d#32, 0x549501de#32⟩ := by
  decide +kernel

/-! ## Host programs and platforms (30_encoding.md R91, 20_memory.md R68) -/

theorem test_absorb_expands :
    absorbStmts 0 [0x61, 0x62, 0x63, 0x64, 0x65] =
      [.wr 0x08 0x61626364#32, .wr 0x00 0x42#32, .rd 0x04 rp, .bnz rp 0x1#32 2,
       .wr 0x08 0x65000000#32, .wr 0x00 0x12#32, .rd 0x04 rp, .bnz rp 0x1#32 6] := by decide
theorem test_hash_of_nothing :
    (hashStmts 0 []).take 7 =
      [.rd 0x04 rp, .bnz rp 0x1#32 0, .wr 0x00 0x1#32, .rd 0x04 rp, .bnz rp 0x1#32 3, .wr 0x00 0x3#32, .rd 0x04 rp] := by
  decide
theorem test_branch_taken :
    (match hostStep ⟨⟨[.bnz 1 0x1#32 7], 0, [(1, 0x00000003#32)]⟩, State.reset⟩ with
      | .next y => y.agent.pos
      | .fault _ => 0
      | .refused _ => 0) = 7 := by decide
theorem test_bases_refused :
    (⟨[0x1004]⟩ : Config.Parameters).wf = false ∧ (⟨[0x1000, 0x1000]⟩ : Config.Parameters).wf = false ∧
    (⟨[]⟩ : Config.Parameters).wf = false := by decide
theorem test_read_of_second_window :
    (match platformStep (.read .w32 0x1048)
        [⟨0x1000, State.reset⟩, ⟨0x1040, { State.reset with dataIn := 0x61#32 }⟩] with
      | .next p => p.map (fun g => g.block.port.rdata)
      | .fault _ => []
      | .refused _ => []) = [0#32, 0x61#32] := by decide
theorem test_sub_borrows :
    (match hostStep ⟨⟨[.sub 1 0x1#32], 0, [(1, 0x00000010#32)]⟩, State.reset⟩ with
      | .next y => hostVar y.agent 1
      | .fault _ => 0
      | .refused _ => 0) = 0x0000000F#32 := by decide
theorem test_second_window :
    (match platformStep (.write .w32 0x1048 0x61#32) (platformReset ⟨[0x1000, 0x1040]⟩) with
      | .next p => p.map (fun g => g.block.dataIn)
      | .fault _ => []
      | .refused _ => []) = [0#32, 0x61#32] := by decide

/-! ## Witnesses: the invariant and the stream -/

/-- The state in mid-message meets the invariant. -/
theorem midMessage_inv {n : Nat} (h : n ≤ 63) : StateInv (midMessage n) := by
  have hm : n % 18446744073709551616 = n := Nat.mod_eq_of_lt (by omega)
  constructor <;> simp [midMessage, State.reset, Sequencer.reset, as, hm]
  all_goals omega

/-- With a DIGEST pending it meets the invariant too, and PHASE is FINALIZING. -/
theorem digesting_inv {n : Nat} (h : n ≤ 63) : StateInv (beginFinalizing (accept .digest (midMessage n))) := by
  have hm := midMessage_inv h
  exact ⟨hm.buf_short, hm.buf_total, by simp, hm.err_code, hm.err_code_le, by simp, by simp, by simp, by simp, by simp,
    by simp [firstRow]⟩

/-- After reset and a DIGEST: DVALID is 1 and the invariant holds. -/
theorem digested_inv : StateInv (complete .digest State.reset) := by
  constructor <;> simp [State.reset, Sequencer.reset, Hasher.created]

theorem reset_stands : StandsFor State.reset.live [] := ⟨rfl, rfl, rfl⟩

theorem three_stand : StandsFor (midMessage 3).live (as 3) := ⟨by decide, by decide, by decide⟩

/-! ## Witnesses: one a statement -/

theorem witness_ResetInputRestoresResetState :
    (((midMessage 3).withInputs [.reset, .cycle]).port.inputs = .reset :: [.cycle]) := rfl

theorem witness_InitDiffersFromResetInThreeWays : (accept .digest State.reset).pend ≠ none := by decide

theorem witness_ExactlyEightWordsAccepted :
    0x00000052#32 ∉ [0x00000000#32, 0x00000001#32, 0x00000003#32, 0x00000002#32, 0x00000012#32, 0x00000022#32, 0x00000032#32, 0x00000042#32] ∧
    (0#3).toNat ≤ 4 ∧ (4#3).toNat ≤ 4 := by decide

theorem witness_DecodeAndEncodeAgree :
    Instr.wf .nop = true ∧ Instr.wf (.update 0) = true ∧ Instr.wf (.update 4) = true ∧ decode 0x42#32 = .ok (.update 4) ∧
    decode 0x3#32 = .ok .digest := by decide

theorem witness_DecodeTestsInOrder :
    (facing (cmdWrite 0x85#32) State.reset).port.inputs = .access (.write .w32 0x00 0x85#32) :: [] ∧
    decodeCommand 0x85#32 State.reset.busy = .error .badOp ∧ decodeCommand 0x42#32 State.reset.busy = .ok (.update 4) := by decide

theorem witness_TableRowsAreDisjoint :
    (⟨"UPDATE", 0x00000002#32, 0xFFFFFF8F#32⟩ : OpRow) ∈ opRows ∧
    (⟨"UPDATE", 0x00000002#32, 0xFFFFFF8F#32⟩ : OpRow).matchesWord 0x00000042#32 = true ∧
    (⟨"UPDATE", 0x00000002#32, 0xFFFFFF8F#32⟩ : OpRow).matchesWord 0x00000072#32 = true ∧
    decode 0x42#32 = .ok (.update 4) ∧ decode 0x72#32 = .error .badNb := by decide

theorem witness_StepRunsDecodedCommand :
    (facing (cmdWrite 0x42#32) State.reset).port.inputs = .access (.write .w32 0x00 0x42#32) :: [] ∧
    decode 0x42#32 = .ok (.update 4) ∧ decodeTableWord 32 0x3 = some .digest := by decide

theorem witness_EngineStepCompletesPending :
    (facing .complete (accept .digest State.reset)).pend = some .digest ∧
    (facing .complete (accept .digest State.reset)).port.inputs = .complete :: [] ∧
    (accept .init State.reset).pend = some .init ∧ (accept .init State.reset).port.inputs = [] ∧
    (facing .complete State.reset).pend = none ∧ (facing .complete State.reset).port.inputs = .complete :: [] ∧
    State.reset.pend = none ∧ State.reset.port.inputs = [] := by decide

/-- What may come between acceptance and completion: a read, a DATA_IN write, a rejected command, an internal step. -/
def between : List Event :=
  [.access (.read .w32 0x04), .access (.write .w32 0x08 0x7a7a7a7a#32), cmdWrite 0x1#32, .cycle]

theorem witness_ResultDoesNotDependOnLatency :
    ((accept (.update [0x64]) State.reset).withInputs (between ++ [.complete])).pend = some (.update [0x64]) ∧
    ((accept (.update [0x64]) State.reset).withInputs (between ++ [.complete])).port.inputs = between ++ [.complete] ∧
    (∀ e ∈ between, legalEvent e = true ∧ e ≠ .complete ∧ e ≠ .reset) := by decide

theorem witness_PendingCommandCompletes :
    LegalInputs ((accept .digest State.reset).withInputs (between ++ [.reset, .complete])) ∧ LegalInputs State.reset := by
  unfold LegalInputs; decide

theorem witness_RejectedWordRaisesInvalidInput :
    (facing (cmdWrite 0x72#32) State.reset).port.inputs = .access (.write .w32 0x00 0x72#32) :: [] ∧
    decodeCommand 0x72#32 State.reset.busy = .error .badNb ∧ decodeCommand 0x4#32 State.reset.busy = .error .badOp ∧
    decodeCommand 0x80#32 State.reset.busy = .error .rsvdBits ∧
    decodeCommand 0x1#32 (accept .nop State.reset).busy = .error .busy := by decide

theorem witness_CommandWhileBusyIsDropped :
    (facing (cmdWrite 0x1#32) (accept .digest State.reset)).pend = some .digest ∧
    (facing (cmdWrite 0x1#32) (accept .digest State.reset)).port.inputs = .access (.write .w32 0x00 0x1#32) :: [] := by decide

theorem witness_NopRunsAndChangesNothing : State.reset.pend = none := rfl
theorem witness_InitRunsAndStartsNewMessage : (midMessage 63).pend = none := rfl
theorem witness_DigestRunsAndWritesResult : (midMessage 56).pend = none := rfl

/-- Both ends of NB, and the buffer lengths at which the result just stays below, and just makes, a block. -/
theorem witness_UpdateRunsAndAbsorbsBytes :
    (midMessage 59).pend = none ∧ (0#3).toNat ≤ 4 ∧ (4#3).toNat ≤ 4 ∧ (midMessage 59).live.buf.length ≤ 63 ∧
    (midMessage 63).live.buf.length ≤ 63 ∧
    [0x61#8, 0x62#8, 0x63#8, 0x64#8] =
      ([(midMessage 59).dataIn.extractLsb' 24 8, (midMessage 59).dataIn.extractLsb' 16 8, (midMessage 59).dataIn.extractLsb' 8 8,
        (midMessage 59).dataIn.extractLsb' 0 8]).take (4#3).toNat ∧
    ((midMessage 59).live.buf ++ [0x61, 0x62, 0x63, 0x64]).length = 63 ∧
    ((midMessage 60).live.buf ++ [0x61, 0x62, 0x63, 0x64]).length = 64 := by decide

theorem witness_CommandsTakeInvalidInput :
    State.reset.pend = none ∧ 4 < (5#3).toNat ∧ 4 < (7#3).toNat ∧ (accept .nop State.reset).pend ≠ none := by decide

theorem witness_SubmissionFrame :
    (∃ t, exec .nop State.reset = .next t) ∧ (∃ t, exec (.update 4) (midMessage 63) = .next t) ∧
    (∃ t, exec .digest (accept .init State.reset) = .next t) ∧ Reg.dataIn ≠ .status ∧ State.reset.pend = none ∧
    Instr.wf (.update 4) = true ∧ Instr.init ≠ .digest :=
  ⟨⟨_, rfl⟩, ⟨_, rfl⟩, ⟨_, rfl⟩, by decide, by decide, by decide, by decide⟩

theorem witness_CompletionFrame :
    (Pending.nop = .nop ∨ Pending.nop = .digest) ∧ (Pending.digest = .nop ∨ Pending.digest = .digest) ∧
    (Pending.update [] = .nop ∨ ∃ d, Pending.update [] = .update d) := ⟨.inl rfl, .inr rfl, .inr ⟨[], rfl⟩⟩

theorem witness_LatchedBytesAreBigEndian :
    State.reset.pend = none ∧ (4#3).toNat ≤ 4 ∧ (∃ t, exec (.update 4) State.reset = .next t) ∧ 3 < (4#3).toNat ∧
    0 < (1#3).toNat := ⟨rfl, by decide, ⟨_, rfl⟩, by decide, by decide⟩

theorem witness_ReadsHaveNoSideEffects :
    0x00 % 4 = 0 ∧ 0x3C % 4 = 0 ∧ 0x3C < 0x40 ∧
    (State.reset.withInputs (.access (.read .w32 0x3C) :: ([.cycle, .access (.read .w32 0x00)] ++ [.access (.read .w32 0x3C)]))).port.inputs =
      .access (.read .w32 0x3C) :: ([.cycle, .access (.read .w32 0x00)] ++ [.access (.read .w32 0x3C)]) ∧
    (Event.access (.read .w32 0x00) = .access (.read .w32 0x00)) ∧
    (facing (.access (.read .w32 0x3C)) State.reset).port.inputs = .access (.read .w32 0x3C) :: [] := by decide

theorem witness_StatusFields :
    StateInv (midMessage 63) ∧ StateInv (beginFinalizing (accept .digest (midMessage 0))) ∧
    (facing (.access (.write .w32 0x04 0x4#32)) State.reset).port.inputs = .access (.write .w32 0x04 0x4#32) :: [] :=
  ⟨midMessage_inv (by decide), digesting_inv (by decide), rfl⟩

theorem witness_ReadOnlyRegistersIgnoreWrites :
    0x1C ∈ [0x0C, 0x18, 0x1C] ∧ 0x3C ∈ [0x0C, 0x10, 0x14, 0x18, 0x1C, 0x20, 0x24, 0x28, 0x2C, 0x30, 0x34, 0x38, 0x3C] ∧
    (facing (.access (.write .w32 0x3C 0x1#32)) State.reset).port.inputs = .access (.write .w32 0x3C 0x1#32) :: [] ∧
    (7 ∈ [3, 7] ∨ (10 ≤ 7 ∧ 7 ≤ 15) ∨ (22 ≤ 7 ∧ 7 ≤ 31)) ∧ (31 ∈ [3, 7] ∨ (10 ≤ 31 ∧ 31 ≤ 15) ∨ (22 ≤ 31 ∧ 31 ≤ 31)) := by
  decide

theorem witness_DataInIsLatchedAtAcceptance :
    (facing (.access (.write .w32 0x08 0x7a#32)) (accept (.update [0x64]) State.reset)).pend = some (.update [0x64]) ∧
    (facing (.access (.write .w32 0x08 0x7a#32)) (accept (.update [0x64]) State.reset)).port.inputs =
      .access (.write .w32 0x08 0x7a#32) :: [] ∧
    (midMessage 0).pend = none ∧ (4#3).toNat ≤ 4 := by decide

theorem witness_IllegalAccessIsRefused :
    (facing (.access (.read .w8 0x04)) State.reset).port.inputs = .access (.read .w8 0x04) :: [] ∧ Width.w8 ≠ .w32 ∧
    Width.w16 ≠ .w32 ∧ 0x42 % 4 ≠ 0 ∧ 0x40 % 4 = 0 ∧ 0x40 ≤ 0x40 ∧ 0x3C % 4 = 0 ∧ 0x3C < 0x40 := by decide

theorem test_refusals :
    nextOf (step (facing (.access (.read .w8 0x04)) State.reset)) = none ∧
    nextOf (step (facing (.access (.write .w32 0x02 0x1#32)) State.reset)) = none ∧
    nextOf (step (facing (.access (.read .w32 0x40)) State.reset)) = none := by decide

theorem witness_LegalInputsNeverStop : LegalInputs (State.reset.withInputs between) := by
  unfold LegalInputs; decide

theorem witness_BusyBitTracksPending : State.reset.pend = none ∧ Instr.wf (.update 4) = true := by decide

/-- A state with an error recorded. -/
def erred : State := { midMessage 2 with err := true, errcode := 4 }

theorem witness_ErrorIsSticky :
    (∃ t, step (facing (.access (.write .w32 0x04 0x4#32)) erred) = .next t ∧ t.err = false) ∧
    (∃ t, step (facing .reset erred) = .next t ∧ t.err = false) ∧
    (∃ t, step (facing (cmdWrite 0x52#32) State.reset) = .next t ∧ t.err = true) ∧
    (∃ t, step (facing (cmdWrite 0x52#32) erred) = .next t ∧ t.err = true) ∧
    (facing (cmdWrite 0x52#32) State.reset).port.inputs = .access (.write .w32 0x00 0x52#32) :: [] ∧
    decodeCommand 0x52#32 State.reset.busy = .error .badNb ∧
    (facing (.access (.write .w32 0x04 0x4#32)) erred).port.inputs = .access (.write .w32 0x04 0x4#32) :: [] ∧
    (0x4#32).getLsbD 2 = true ∧ erred.err = true ∧ State.reset.err = false ∧
    StateInv State.reset ∧ (∃ t, exec (.update 4) State.reset = .next t) :=
  ⟨⟨_, rfl, rfl⟩, ⟨_, rfl, rfl⟩, ⟨_, rfl, rfl⟩, ⟨_, rfl, rfl⟩, rfl, rfl, rfl, rfl, rfl, rfl,
    by constructor <;> simp [State.reset, Hasher.created, Sequencer.reset], ⟨_, rfl⟩⟩

theorem witness_DvalidMeansDigestIsCurrent :
    StateInv (complete .digest State.reset) ∧ StandsFor (complete .digest State.reset).live [] ∧
    (complete .digest State.reset).dvalid = true ∧ 1 ≤ [0x61#8].length ∧ (∃ t, exec .digest State.reset = .next t) :=
  ⟨digested_inv, reset_stands, rfl, by decide, ⟨_, rfl⟩⟩

theorem witness_PhaseFollowsStateMachine :
    State.reset.pend = none ∧
    (∀ (w : Width) (v : Word), Access.write .w32 0x08 0x1#32 ≠ .write w 0x00 v) ∧
    (∃ t, step (facing (.access (.write .w32 0x08 0x1#32)) State.reset) = .next t) ∧
    StateInv (beginFinalizing (accept .digest (midMessage 3))) :=
  ⟨rfl, by intro w v h; simp at h, ⟨_, rfl⟩, digesting_inv (by decide)⟩

theorem witness_OnlyThreeWritersOfH :
    (∃ t, step (facing .reset { State.reset with live := ⟨zero8, [], 0⟩ }) = .next t ∧ t.live.h ≠ zero8) ∧
    (∃ t, step (accept .init { State.reset with live := ⟨zero8, [], 0⟩ }) = .next t ∧ t.live.h ≠ zero8) ∧
    (∃ t, step (accept (.update [0x61]) (midMessage 63)) = .next t ∧ t.live.h ≠ (midMessage 63).live.h) :=
  ⟨⟨_, rfl, by decide⟩, ⟨_, rfl, by decide⟩, ⟨_, rfl, by decide +kernel⟩⟩

theorem witness_ResultsChangeOnlyAtCompletion :
    (∃ t, step (facing .cycle (accept .digest (midMessage 3))) = .next t) ∧
    (∀ rest, (facing .cycle (accept .digest (midMessage 3))).port.inputs ≠ .reset :: rest) ∧
    ¬((facing .cycle (accept .digest (midMessage 3))).port.inputs = [] ∨
      ∃ rest, (facing .cycle (accept .digest (midMessage 3))).port.inputs = .complete :: rest) ∧
    (∃ t, step State.reset = .next t) ∧ State.reset.pend = none :=
  ⟨⟨_, rfl⟩, by intro rest h; simp [facing] at h, by simp [facing], ⟨_, rfl⟩, rfl⟩

theorem witness_RotrMovesBits : (0 < 1 ∧ 1 < 32 ∧ 0 < 32) ∧ (0 < 31 ∧ 31 < 32 ∧ 31 < 32) := by decide

theorem witness_ChSelectsAndMajVotes : 0 < 32 ∧ 31 < 32 := by decide

theorem witness_SigmasMixThreeTerms : 0 < 32 ∧ 28 + 3 < 32 ∧ ¬ 29 + 3 < 32 ∧ 31 < 32 := by decide

theorem witness_AdderChainWraps : [0xffffffff#32, 0x1#32].Perm [0x1#32, 0xffffffff#32] := List.Perm.swap _ _ _

theorem witness_ScheduleFollowsRecurrence :
    (as 64).length = 64 ∧ (List.replicate 64 0#8).length = 64 ∧ 15 < 16 ∧ 16 ≤ 16 ∧ 63 < 64 := by decide

/-- The window after each round, for the block `as 64`. -/
def windows : Nat → List Word
  | 0 => blockWords (as 64)
  | t + 1 => windowShift t (windows t)

theorem witness_RollingWindowSuppliesSchedule :
    windows 0 = blockWords (as 64) ∧ (∀ t, windows (t + 1) = windowShift t (windows t)) ∧ 63 < 64 :=
  ⟨rfl, fun _ => rfl, by decide⟩

/-- The working variables after each round of the block `as 64`. -/
def workings : Nat → Working
  | 0 => loadWorking iv
  | t + 1 =>
    let v := workings t
    let t1 := v.h + bigSigma1 v.e + ch v.e v.f v.g + kAt t + (schedule (as 64)).getD t 0
    let t2 := bigSigma0 v.a + maj v.a v.b v.c
    ⟨t1 + t2, v.a, v.b, v.c, v.d + t1, v.e, v.f, v.g⟩

theorem witness_CompressIsSixtyFourRounds :
    workings 0 = ⟨iv.w0, iv.w1, iv.w2, iv.w3, iv.w4, iv.w5, iv.w6, iv.w7⟩ ∧
    (∀ t, t < 64 → ∃ t1 t2 : Word,
      t1 = (workings t).h + bigSigma1 (workings t).e + ch (workings t).e (workings t).f (workings t).g + kAt t +
        (schedule (as 64)).getD t 0 ∧
      t2 = bigSigma0 (workings t).a + maj (workings t).a (workings t).b (workings t).c ∧
      workings (t + 1) =
        ⟨t1 + t2, (workings t).a, (workings t).b, (workings t).c, (workings t).d + t1, (workings t).e, (workings t).f,
          (workings t).g⟩) :=
  ⟨rfl, fun _ _ => ⟨_, _, rfl, rfl, rfl⟩⟩

/-- The primes below 312 are 64, from 2 to 311. -/
theorem witness_RomHoldsRootsOfPrimes :
    ∃ ps : List Nat,
      ps = (List.range 312).filter (fun n => decide (2 ≤ n) && (List.range n).all (fun m => decide (m < 2) || n % m != 0)) ∧
      ps.length = 64 ∧ ps.getD 0 0 = 2 ∧ ps.getD 63 0 = 311 := ⟨_, rfl, by decide +kernel⟩

theorem witness_PaddingFillsOneOrTwoBlocks :
    (as 0).length ≤ 55 ∧ (as 55).length ≤ 55 ∧ 56 ≤ (as 56).length ∧ (as 63).length ≤ 63 ∧ 7 < 8 ∧
    ((as 56).length + 1 + 63) % 64 = 56 := by decide

theorem witness_LengthSuffixIsBitCount :
    (0x2000000000000003#64).extractLsb' 0 61 = (0x3#64).extractLsb' 0 61 ∧ (as 63).length ≤ 63 := by decide

theorem witness_FinalizeCompressesPaddedBlocks :
    (as 55).length ≤ 63 ∧ (as 56).length ≤ 63 ∧ (as 63).length ≤ 63 ∧ 3 < 4 := by decide

theorem witness_StreamIsKeptByEveryStep :
    StandsFor (accept (.update [0x61]) (midMessage 3)).live (as 3) ∧
    (∃ t, step (accept (.update [0x61]) (midMessage 3)) = .next t) := ⟨three_stand, ⟨_, rfl⟩⟩

theorem witness_ChunkingDoesNotMatter : (midMessage 63).live.buf.length ≤ 63 := by decide

theorem witness_DigestIsOfWholeMessage :
    ∃ (t : State) (ps : List Pending), ps = [.update [0x61, 0x62], .digest, .nop, .update [0x63]] ∧ (∀ p ∈ ps, p ≠ .init) ∧
      t = ps.foldl (fun s p => complete p s) (complete .init State.reset) := ⟨_, _, rfl, by decide, rfl⟩

theorem witness_EveryStepKeepsInvariant :
    StateInv (facing .complete (midMessage 63)) ∧ (∃ t, step (facing .complete (midMessage 63)) = .next t) := by
  have h := midMessage_inv (n := 63) (by decide)
  exact ⟨⟨h.buf_short, h.buf_total, h.pend_bytes, h.err_code, h.err_code_le, h.phase_finalizing, h.phase_output,
    h.phase_empty, h.dvalid_pending, h.dvalid_digest, h.seq_idle⟩, ⟨_, rfl⟩⟩

theorem witness_SequencerPreparesCompletion :
    (accept .digest (midMessage 56)).pend = some .digest ∧ (midMessage 56).live.buf.length ≤ 63 ∧
    (accept .digest (midMessage 56)).seq.ctl = firstRow .digest ∧ refLatency 55 .digest = 69 ∧ refLatency 56 .digest = 136 ∧
    (∀ d, Pending.digest = .update d → d.length ≤ 4) ∧
    (accept (.update [1, 2, 3, 4]) (midMessage 60)).seq.ctl = firstRow (.update [1, 2, 3, 4]) ∧
    (∀ d, Pending.update [1, 2, 3, 4] = .update d → d.length ≤ 4) ∧ refLatency 60 (.update [1, 2, 3, 4]) = 69 ∧
    refLatency 59 (.update [1, 2, 3, 4]) = 2 :=
  ⟨rfl, by decide, rfl, rfl, rfl, by intro d h; simp at h, rfl,
    by intro d h; simp at h; subst h; decide, rfl, rfl⟩

theorem witness_HiddenStateIsUnobservable :
    SameButHidden (midMessage 3) (cycle (accept .nop (midMessage 3)) |> retire) ∧
    SameButHidden (accept (.update [0x61]) (midMessage 3)) (cycle (accept (.update [0x61]) (midMessage 3))) ∧
    accept (.update [0x61]) (midMessage 3) ≠ cycle (accept (.update [0x61]) (midMessage 3)) ∧
    (∃ t, step (midMessage 3) = .next t) := ⟨rfl, rfl, by decide, ⟨_, rfl⟩⟩

theorem witness_EnginesAreIndependent :
    ((1 : Nat) ≠ 0) ∧ (∃ q, platformStep (.cycle 0) (platformReset ⟨[0x1000, 0x1040]⟩) = .next q) ∧
    (platformReset ⟨[0x1000, 0x1040]⟩)[1]? = some ⟨0x1040, State.reset⟩ ∧ inWindow ⟨0x1040, State.reset⟩ 0x103C = false ∧
    (∃ q, platformStep (.read .w32 0x103C) (platformReset ⟨[0x1000, 0x1040]⟩) = .next q) :=
  ⟨by decide, ⟨_, rfl⟩, rfl, by decide, ⟨_, rfl⟩⟩

theorem witness_WindowAccessReachesItsEngine :
    (⟨[0x1000, 0x1040]⟩ : Config.Parameters).wf = true ∧ 0x1000 ∈ [0x1000, 0x1040] ∧ (0x1000 : Nat) ≠ 0x1040 ∧ 0x3F < 0x40 ∧
    0x3C % 4 = 0 ∧ 0x3C < 0x40 ∧ (∀ x ∈ [(⟨0x1000, State.reset⟩ : Engine)], inWindow x (0x1040 + 0x3C) = false) ∧
    (platformReset ⟨[0x1000, 0x1040]⟩)[1]? = some ⟨0x1040, State.reset⟩ := by decide

theorem witness_HashProgramAbsorbsMessage :
    (hashStmts 10 [0x61])[1]? = some (.bnz rp 1 10) ∧ (hashStmts 10 [0x61])[8]? = some (.bnz rp 1 17) ∧
    (hashStmts 10 [0x61])[2]? = some (.wr 0x00 0x1#32) ∧ (hashStmts 10 [0x61])[6]? = some (.wr 0x00 0x12#32) ∧
    (hashStmts 10 [0x61])[9]? = some (.wr 0x00 0x3#32) := by decide

theorem witness_HostReachesEngineByAccessesAlone :
    (∃ z, hostStep ⟨⟨[.wr 0x08 0x61#32], 0, []⟩, State.reset⟩ = .next z) ∧
    (∃ z, hostStep ⟨⟨[.rd 0x04 1], 0, []⟩, State.reset⟩ = .next z) ∧
    (∃ z, hostStep ⟨⟨[.sub 1 0x1#32], 0, []⟩, State.reset⟩ = .next z) ∧
    (∃ z, hostStep ⟨⟨[], 0, []⟩, State.reset⟩ = .next z) := ⟨⟨_, rfl⟩, ⟨_, rfl⟩, ⟨_, rfl⟩, ⟨_, rfl⟩⟩

end Sys2Proof.Tests
end

section
/-! The statements of 10_state.md: the register window and its STATUS fields, ERR and BUSY, DATA_IN, and the reset state
(O1, O25, O26, O27, O30, O31), after the lemmas about register writes and status fields they share. -/

namespace Sys2Proof.Proofs

open Sys2Proof Sys2Proof.Machine Sys2Proof.Laws

/-! ## Writes of the register window -/

/-- A legal write at the head of the inputs is the write of the register at its offset. -/
theorem step_write {s : State} {off : Nat} {v : Word} {rest : List Event} (h4 : off % 4 = 0) (hl : off < 0x40)
    (h : s.port.inputs = .access (.write .w32 off v) :: rest) :
    step s = writeReg v (s.withInputs rest) (regAt off) := by
  rw [step_cons h]
  exact hostAccess_write h4 hl

theorem step_statusWrite {s : State} {v : Word} {rest : List Event}
    (h : s.port.inputs = .access (.write .w32 0x04 v) :: rest) : step s = .next (writeStatus v (s.withInputs rest)) :=
  step_write (by decide) (by decide) h

theorem step_dataInWrite {s : State} {v : Word} {rest : List Event}
    (h : s.port.inputs = .access (.write .w32 0x08 v) :: rest) :
    step s = .next { s.withInputs rest with dataIn := v } :=
  step_write (by decide) (by decide) h

/-- A rejected CMD write takes the exception. -/
theorem step_rejectedWrite {s : State} {v : Word} {rest : List Event} {c : InvalidInput}
    (h : s.port.inputs = .access (.write .w32 0x00 v) :: rest) (hc : decodeCommand v s.busy = .error c) :
    step s = .next (takeInvalidInput c (s.withInputs rest)) := by
  rw [step_cmdWrite h]
  exact writeCmd_rejected hc

/-- A register other than CMD, STATUS and DATA_IN ignores writes (R43). -/
theorem writeReg_ignored {r : Reg} (hc : r ≠ .cmd) (hs : r ≠ .status) (hd : r ≠ .dataIn) (v : Word) (s : State) :
    writeReg v s r = .next s := by
  cases r with
  | cmd => exact absurd rfl hc
  | status => exact absurd rfl hs
  | dataIn => exact absurd rfl hd
  | lenLo | lenHi | digest k | reserved => rfl

theorem writeStatus_bit2 {v : Word} (h : v.getLsbD 2 = true) (s : State) : writeStatus v s = acknowledgeError s :=
  if_pos h

theorem writeStatus_no_bit2 {v : Word} (h : v.getLsbD 2 = false) (s : State) : writeStatus v s = s := by
  rw [writeStatus, h]; rfl

/-! ## The fields of STATUS -/

/-- A bitwise or of a multiple of `2 ^ k` and a number below `2 ^ k` adds them. -/
theorem toNat_or_of_low {w a b : Nat} {x y : BitVec w} (k : Nat) (hx : x.toNat = a) (hy : y.toNat = b)
    (ha : a % 2 ^ k = 0) (hb : b < 2 ^ k) : (x ||| y).toNat = a + b := by
  obtain ⟨q, hq⟩ := Nat.dvd_of_mod_eq_zero ha
  rw [BitVec.toNat_or, hx, hy, hq, Nat.two_pow_add_eq_or_of_lt hb]

/-- A field moved to its place in a word, where it fits. -/
theorem toNat_field {n k : Nat} (x : BitVec n) (h : n + k ≤ 32) : (x.setWidth 32 <<< k).toNat = x.toNat * 2 ^ k := by
  have hx : x.toNat * 2 ^ k < 2 ^ 32 :=
    calc x.toNat * 2 ^ k < 2 ^ n * 2 ^ k := Nat.mul_lt_mul_of_pos_right x.isLt (by positivity)
      _ = 2 ^ (n + k) := (Nat.pow_add 2 n k).symm
      _ ≤ 2 ^ 32 := Nat.pow_le_pow_right (by decide) h
  rw [BitVec.toNat_shiftLeft, BitVec.toNat_setWidth_of_le (by omega), Nat.shiftLeft_eq, Nat.mod_eq_of_lt hx]

theorem bitWord_eq (b : Bool) : bitWord b = (BitVec.ofBool b).setWidth 32 := by cases b <;> rfl

theorem toNat_bitWord (b : Bool) : (bitWord b).toNat = b.toNat := by cases b <;> rfl

theorem toNat_bitWord_shift (b : Bool) {k : Nat} (h : 1 + k ≤ 32) : (bitWord b <<< k).toNat = b.toNat * 2 ^ k := by
  rw [bitWord_eq, toNat_field _ h, BitVec.toNat_ofBool]

/-- The fields of STATUS as numbers are below the powers of 2 their widths give. -/
theorem statusField_bounds (s : State) :
    (bufLen s).toNat < 2 ^ 6 ∧ (phaseCode s.phase).toNat < 2 ^ 2 ∧ s.errcode.toNat < 2 ^ 3 ∧ s.err.toNat < 2 ∧
      s.dvalid.toNat < 2 ∧ s.busy.toNat < 2 :=
  ⟨(bufLen s).isLt, (phaseCode s.phase).isLt, s.errcode.isLt, s.err.toNat_lt, s.dvalid.toNat_lt, s.busy.toNat_lt⟩

/-- STATUS as a number, in every state: its fields stand in disjoint places (R33). -/
theorem statusWord_toNat (s : State) :
    (statusWord s).toNat =
      (bufLen s).toNat * 2 ^ 16 + (phaseCode s.phase).toNat * 2 ^ 8 + s.errcode.toNat * 2 ^ 4 + s.err.toNat * 2 ^ 2 +
        s.dvalid.toNat * 2 + s.busy.toNat := by
  obtain ⟨-, hphase, hcode, herr, hdvalid, hbusy⟩ := statusField_bounds s
  have h8 := toNat_or_of_low 16 (toNat_field (bufLen s) (k := 16) (by decide))
    (toNat_field (phaseCode s.phase) (k := 8) (by decide)) (by omega) (by omega)
  have h4 := toNat_or_of_low 8 h8 (toNat_field s.errcode (k := 4) (by decide)) (by omega) (by omega)
  have h2 := toNat_or_of_low 4 h4 (toNat_bitWord_shift s.err (k := 2) (by decide)) (by omega) (by omega)
  have h1 := toNat_or_of_low 2 h2 (toNat_bitWord_shift s.dvalid (k := 1) (by decide)) (by omega) (by omega)
  exact toNat_or_of_low 1 h1 (toNat_bitWord s.busy) (by omega) (by omega)

/-- The reserved bits of STATUS read 0 in every state (R43). -/
theorem statusWord_reserved (s : State) :
    (statusWord s).extractLsb' 3 1 = 0 ∧ (statusWord s).extractLsb' 7 1 = 0 ∧ (statusWord s).extractLsb' 10 6 = 0 ∧
      (statusWord s).extractLsb' 22 10 = 0 := by
  have hword := statusWord_toNat s
  obtain ⟨hlen, hphase, hcode, herr, hdvalid, hbusy⟩ := statusField_bounds s
  refine ⟨?_, ?_, ?_, ?_⟩ <;> apply BitVec.eq_of_toNat_eq <;>
    rw [BitVec.extractLsb'_toNat, Nat.shiftRight_eq_div_pow] <;> simp only [BitVec.ofNat_eq_ofNat, BitVec.toNat_ofNat] <;> omega

/-- A bit of a field that reads 0 reads 0. -/
theorem getLsbD_of_extractLsb'_eq_zero {w start len i : Nat} {x : BitVec w} (h : x.extractLsb' start len = 0)
    (hs : start ≤ i) (hl : i < start + len) : x.getLsbD i = false := by
  have hbit := congrArg (fun y => y.getLsbD (i - start)) h
  simpa [show i - start < len by omega, Nat.add_sub_cancel' hs] using hbit

theorem statusWord_bits_reserved (s : State) {i : Nat}
    (hi : i ∈ [3, 7] ∨ (10 ≤ i ∧ i ≤ 15) ∨ (22 ≤ i ∧ i ≤ 31)) : (statusWord s).getLsbD i = false := by
  obtain ⟨h3, h7, h10, h22⟩ := statusWord_reserved s
  rcases hi with hi | ⟨hl, hu⟩ | ⟨hl, hu⟩
  · obtain rfl | rfl : i = 3 ∨ i = 7 := by simpa using hi
    · exact getLsbD_of_extractLsb'_eq_zero h3 (by decide) (by decide)
    · exact getLsbD_of_extractLsb'_eq_zero h7 (by decide) (by decide)
  · exact getLsbD_of_extractLsb'_eq_zero h10 hl (by omega)
  · exact getLsbD_of_extractLsb'_eq_zero h22 hl (by omega)

theorem bufLen_toNat {s : State} (h : s.live.buf.length ≤ 63) : (bufLen s).toNat = s.live.buf.length := by
  simp only [bufLen, BitVec.toNat_ofNat]
  omega

theorem phaseCode_le_two {p : Phase} (h : p ≠ .output) : (phaseCode p).toNat ≤ 2 := by
  cases p with
  | output => exact absurd rfl h
  | empty | accumulating | finalizing => decide

/-- Settles O25: the fields by `statusWord_toNat`, their legal values by the invariant. -/
theorem statusFields : Obligations.StatusFields := by
  refine ⟨fun _ => rfl, fun s hs => ⟨?_, hs.buf_short, phaseCode_le_two hs.phase_output, hs.err_code_le,
    statusWord_reserved s⟩, fun s v rest hin => ?_, rfl, rfl, rfl, by decide⟩
  · rw [statusWord_toNat, bufLen_toNat hs.buf_short]
  · rw [step_statusWrite hin]
    cases hv : v.getLsbD 2 with
    | false => rw [writeStatus_no_bit2 hv]; rfl
    | true => rw [writeStatus_bit2 hv]; rfl

/-! ## Read-only and reserved registers -/

/-- Settles O26: a write to a register that is not CMD, STATUS or DATA_IN leaves the state as it is. -/
theorem readOnlyRegistersIgnoreWrites : Obligations.ReadOnlyRegistersIgnoreWrites := by
  refine ⟨fun s off hoff => ?_, fun s off v rest hoff hin => ?_, fun s i hi => statusWord_bits_reserved s hi⟩
  · have hreg : regAt off = .reserved := by revert off; decide
    rw [hreg, readReg]
  · have hfacts : off % 4 = 0 ∧ off < 0x40 ∧ regAt off ≠ .cmd ∧ regAt off ≠ .status ∧ regAt off ≠ .dataIn := by
      clear hin; revert off; decide
    obtain ⟨h4, hl, hc, hs, hd⟩ := hfacts
    rw [step_write h4 hl hin]
    exact writeReg_ignored hc hs hd v _

/-! ## DATA_IN -/

/-- The engine's step leaves the host's register and the error as they are. -/
theorem engineStep_frame (s : State) :
    (engineStep s).dataIn = s.dataIn ∧ (engineStep s).err = s.err ∧ (engineStep s).errcode = s.errcode := by
  cases h : s.pend with
  | none => simp [engineStep_idle h]
  | some p => simp [engineStep_pending h]

/-- What a completion absorbs depends on PEND and the Hasher alone. -/
theorem engineStep_live_congr {s t : State} (hp : t.pend = s.pend) (hl : t.live = s.live) :
    (engineStep t).live = (engineStep s).live := by
  cases h : s.pend with
  | none => rw [engineStep_idle h, engineStep_idle (hp.trans h), hl]
  | some p =>
    rw [engineStep_pending h, engineStep_pending (hp.trans h)]
    cases p with
    | nop | init | update d | digest => simp [hl]

/-- Settles O27: the pending record holds the latched bytes, and a completion does not read DATA_IN. -/
theorem dataInIsLatchedAtAcceptance : Obligations.DataInIsLatchedAtAcceptance := by
  refine ⟨fun s v rest hin => step_dataInWrite hin, fun _ => rfl, fun s => ⟨(engineStep_frame s).1, cycle_dataIn s⟩,
    fun s nb hp hn => ⟨_, exec_idle hp (decide_eq_true hn), rfl⟩, fun s d v rest hp hin => ⟨_, step_dataInWrite hin, hp, engineStep_live_congr rfl rfl⟩⟩

/-! ## BUSY -/

/-- Acceptance of a well-formed command sets BUSY. -/
theorem exec_idle_busy {s : State} (h : s.pend = none) {i : Instr} (hi : i.wf = true) :
    ∃ t, exec i s = .next t ∧ t.busy = true := by
  refine ⟨_, exec_idle h hi, ?_⟩
  split <;> simp [State.busy]

/-- Settles O30: bit 0 of STATUS is BUSY, which is whether PEND holds a command. -/
theorem busyBitTracksPending : Obligations.BusyBitTracksPending := by
  simp only [Obligations.BusyBitTracksPending, statusWord_bit0]
  refine ⟨fun s => busy_iff_pend, fun i s hp hi => exec_idle_busy hp hi, fun p s => ?_, fun s => ?_, fun c s => ?_⟩
  · exact busy_of_pend_none (complete_pend p s)
  · exact busy_of_pend_none (applyReset_pend s)
  · simp only [State.busy, takeInvalidInput_pend]

/-! ## ERR and ERRCODE -/

/-- What clears the error comes next: a STATUS write with bit 2 set, or reset (R36). -/
def ErrorClearNext (s : State) : Prop :=
  (∃ (v : Word) (rest : List Event), s.port.inputs = .access (.write .w32 0x04 v) :: rest ∧ v.getLsbD 2 = true) ∨
    ∃ rest, s.port.inputs = .reset :: rest

/-- A CMD write that is rejected with cause `c` comes next (R36, R203). -/
def RejectionNext (s : State) (c : InvalidInput) : Prop :=
  ∃ (v : Word) (rest : List Event), s.port.inputs = .access (.write .w32 0x00 v) :: rest ∧
    decodeCommand v s.busy = .error c

/-- An accepted command leaves ERR and ERRCODE; a rejected one takes the exception. -/
theorem writeCmd_errs {v : Word} {s t : State} (h : writeCmd v s = .next t) :
    (t.err = s.err ∧ t.errcode = s.errcode) ∨
      ∃ c, decodeCommand v s.busy = .error c ∧ t = takeInvalidInput c s := by
  rcases writeCmd_cases h with hrejected | ⟨-, rfl⟩ | ⟨i, -, -, -, rfl⟩
  · exact .inr hrejected
  · exact .inl ⟨rfl, rfl⟩
  · exact .inl ⟨rfl, rfl⟩

/-- All that a step can do to ERR and ERRCODE: keep them, take the exception, or clear them. -/
theorem step_errs {s t : State} (h : step s = .next t) :
    (t.err = s.err ∧ t.errcode = s.errcode) ∨
    (∃ c, RejectionNext s c ∧ t.err = true ∧ t.errcode = if s.err then s.errcode else c.code) ∨
    (ErrorClearNext s ∧ t.err = false ∧ t.errcode = 0) := by
  rcases step_cases h with ⟨-, rfl⟩ | ⟨a, rest, hin, ha⟩ | ⟨rest, -, rfl⟩ | ⟨rest, -, rfl⟩ | ⟨rest, hin, rfl⟩
  · exact .inl (engineStep_frame s).2
  · rcases hostAccess_cases ha with ⟨off, -, rfl⟩ | ⟨v, rfl, hw⟩ | ⟨v, rfl, rfl⟩ | ⟨v, -, rfl⟩ | ⟨off, v, -, -, rfl⟩
    · exact .inl ⟨rfl, rfl⟩
    · rcases writeCmd_errs hw with hkept | ⟨c, hc, rfl⟩
      · exact .inl hkept
      · exact .inr (.inl ⟨c, ⟨v, rest, hin, hc⟩, takeInvalidInput_err c _, takeInvalidInput_errcode c _⟩)
    · cases hv : v.getLsbD 2 with
      | false => rw [writeStatus_no_bit2 hv]; exact .inl ⟨rfl, rfl⟩
      | true => rw [writeStatus_bit2 hv]; exact .inr (.inr ⟨.inl ⟨v, rest, hin, hv⟩, rfl, rfl⟩)
    · exact .inl ⟨rfl, rfl⟩
    · exact .inl ⟨rfl, rfl⟩
  · exact .inl (engineStep_frame (s.withInputs rest)).2
  · exact .inl ⟨rfl, rfl⟩
  · exact .inr (.inr ⟨.inr ⟨rest, hin⟩, rfl, rfl⟩)

/-- ERR goes from 1 to 0 only where it is cleared. -/
theorem step_clears_err {s t : State} (h : step s = .next t) (hs : s.err = true) (ht : t.err = false) :
    t.errcode = 0 ∧ ErrorClearNext s := by
  rcases step_errs h with ⟨herr, -⟩ | ⟨c, -, herr, -⟩ | ⟨hclear, -, hcode⟩
  · simp [hs, ht] at herr
  · simp [ht] at herr
  · exact ⟨hcode, hclear⟩

/-- ERR goes from 0 to 1 only by a rejection, whose code is recorded. -/
theorem step_sets_err {s t : State} (h : step s = .next t) (hs : s.err = false) (ht : t.err = true) :
    ∃ c, RejectionNext s c ∧ t.errcode = c.code := by
  rcases step_errs h with ⟨herr, -⟩ | ⟨c, hreject, -, hcode⟩ | ⟨-, herr, -⟩
  · simp [hs, ht] at herr
  · exact ⟨c, hreject, by simpa [hs] using hcode⟩
  · simp [ht] at herr

/-- While ERR stays 1 the first cause is kept (R37). -/
theorem step_keeps_errcode {s t : State} (h : step s = .next t) (hs : s.err = true) (ht : t.err = true) :
    t.errcode = s.errcode := by
  rcases step_errs h with ⟨-, hcode⟩ | ⟨c, -, -, hcode⟩ | ⟨-, herr, -⟩
  · exact hcode
  · simpa [hs] using hcode
  · simp [ht] at herr

/-- The acceptance of a command neither reads nor writes ERR and ERRCODE. -/
theorem exec_idle_errs {i : Instr} {s t : State} (hp : s.pend = none) (hi : i.wf = true) (h : exec i s = .next t)
    (e : Bool) (c : BitVec 3) :
    exec i { s with err := e, errcode := c } = .next { t with err := e, errcode := c } := by
  rw [exec_idle hp hi] at h
  obtain rfl := Host.Outcome.next.inj h
  rw [exec_idle (s := { s with err := e, errcode := c }) hp hi]
  cases i with
  | nop | init | update nb | digest => rfl

/-- The completion of a command neither reads nor writes ERR and ERRCODE. -/
theorem complete_errs (p : Pending) (s : State) (e : Bool) (c : BitVec 3) :
    complete p { s with err := e, errcode := c } = { complete p s with err := e, errcode := c } := by
  cases p with
  | nop | init | update d | digest => rfl

/-- Settles O31: what sets, keeps and clears the error is `step_errs`. -/
theorem errorIsSticky : Obligations.ErrorIsSticky := by
  refine ⟨fun s t => step_clears_err, fun s t h hs ht => ?_, fun s t => step_keeps_errcode,
    fun s v rest c hin hc => ⟨_, step_rejectedWrite hin hc, takeInvalidInput_err c _, takeInvalidInput_errcode c _⟩,
    fun s v rest hin hv => ⟨_, step_statusWrite hin, ?_⟩, fun s => ⟨applyReset_err s, applyReset_errcode s⟩,
    fun s hs => ⟨hs.err_code, hs.err_code_le⟩, fun i s t e c hp hi h => exec_idle_errs hp hi h e c, complete_errs⟩
  · obtain ⟨c, ⟨v, rest, hin, hc⟩, hcode⟩ := step_sets_err h hs ht
    exact ⟨v, rest, c, hin, hc, hcode⟩
  · rw [writeStatus_bit2 hv]
    exact ⟨acknowledgeError_err _, acknowledgeError_errcode _⟩

/-! ## Reset -/

@[simp] theorem word8At_zero8 (k : Fin 8) : word8At zero8 k = 0 := by revert k; decide

/-- After reset every register reads 0. -/
theorem readReg_reset (r : Reg) : readReg State.reset r = 0 := by
  cases r with
  | cmd | dataIn | reserved => rfl
  | status | lenLo | lenHi => decide
  | digest k => exact word8At_zero8 k

/-- The digest of the empty message is what finalizing a Hasher just created gives. -/
theorem sha256_nil : sha256 [] = finalize Hasher.created.h Hasher.created.buf Hasher.created.totalLen := rfl

/-- Settles O1: DIGEST after reset completes with `finalize` of the created Hasher, which `sha256_nil` names. -/
theorem resetLeavesListedValues : Obligations.ResetLeavesListedValues := by
  refine ⟨rfl, rfl, rfl, rfl, rfl, rfl, word8At_zero8, rfl, rfl, rfl, rfl, readReg_reset,
    _, exec_idle (i := .digest) rfl rfl, ?_⟩
  rw [if_pos rfl, engineStep_pending (p := .digest) rfl]
  exact ⟨sha256_nil.symm, complete_digest_dvalid _⟩

end Sys2Proof.Proofs
end

section
/-! The statements of 20_memory.md: what a legal read does and leaves unchanged, and which accesses are refused (O23,
O28). -/

namespace Sys2Proof.Proofs

open Sys2Proof Sys2Proof.Machine Sys2Proof.Laws

/-- A host access at the head of the inputs is that access. -/
theorem step_access {s : State} {a : Access} {rest : List Event} (h : s.port.inputs = .access a :: rest) :
    step s = hostAccess a (s.withInputs rest) :=
  step_cons h

/-! ## Reads -/

/-- No register shows the hidden state or the boundary (R30). -/
theorem readReg_hidden (s : State) (q : Sequencer) (p : HostPort) (r : Reg) :
    readReg { s with seq := q, port := p } r = readReg s r := by
  cases r with
  | cmd | status | dataIn | lenLo | lenHi | digest k | reserved => rfl

/-- A legal read at the head of the inputs delivers the register's value and uses up the input; nothing else changes. -/
theorem step_read {s : State} {off : Nat} {rest : List Event} (h4 : off % 4 = 0) (hl : off < 0x40)
    (h : s.port.inputs = .access (.read .w32 off) :: rest) :
    step s = .next { s with port := ⟨rest, readReg s (regAt off)⟩ } := by
  have hvalue : readReg (s.withInputs rest) (regAt off) = readReg s (regAt off) := readReg_hidden s s.seq _ _
  rw [step_access h, hostAccess_read h4 hl, hvalue]
  rfl

/-- The steps that may come between two reads of R62: internal steps of the engine and legal reads. -/
def QuietEvent (e : Event) : Prop :=
  e = .cycle ∨ ∃ o, o % 4 = 0 ∧ o < 0x40 ∧ e = .access (.read .w32 o)

/-- A quiet step answers a next state and leaves the value of every register as it was. -/
theorem step_quiet {s : State} {e : Event} {rest : List Event} (he : QuietEvent e) (h : s.port.inputs = e :: rest) :
    ∃ t, step s = .next t ∧ t.port.inputs = rest ∧ ∀ r, readReg t r = readReg s r := by
  rcases he with rfl | ⟨o, h4, hl, rfl⟩
  · exact ⟨cycle (s.withInputs rest), step_cons h, rfl, readReg_hidden s _ _⟩
  · exact ⟨_, step_read h4 hl h, rfl, readReg_hidden s s.seq _⟩

/-- A read after any number of quiet steps delivers the value the register had before them. -/
theorem run_quiet_read {es : List Event} (hes : ∀ e ∈ es, QuietEvent e) {off : Nat} (h4 : off % 4 = 0) (hl : off < 0x40)
    {s : State} (h : s.port.inputs = es ++ [.access (.read .w32 off)]) :
    ∃ u : State, Host.Core.run Sys2Proof.core (es.length + 1) s = .next u ∧ u.port.rdata = readReg s (regAt off) := by
  induction es generalizing s with
  | nil => exact ⟨_, run_step (step_read h4 hl h), rfl⟩
  | cons e es ih =>
    obtain ⟨he, htail⟩ := List.forall_mem_cons.mp hes
    obtain ⟨t, ht, hin, hregs⟩ := step_quiet he h
    obtain ⟨u, hu, hvalue⟩ := ih htail hin
    exact ⟨u, (run_step ht).trans hu, hvalue.trans (hregs _)⟩

/-- Settles O23: a read is `step_read`, and the repeated one is `run_quiet_read` from the state the first leaves. -/
theorem readsHaveNoSideEffects : Obligations.ReadsHaveNoSideEffects := by
  refine ⟨fun s off rest h4 hl hin => ⟨_, step_read h4 hl hin, rfl⟩, fun s es off h4 hl hes hin => ?_⟩
  have hfirst := step_read h4 hl hin
  obtain ⟨u, hu, hvalue⟩ := run_quiet_read hes h4 hl (s := { s with port := ⟨_, readReg s (regAt off)⟩ }) rfl
  exact ⟨_, u, hfirst, (run_step hfirst).trans hu, rfl, hvalue.trans (readReg_hidden s s.seq _ _)⟩

/-! ## Legal and illegal accesses -/

/-- `legalAccess` is R61's condition on the width and offset of a read or write. -/
theorem legalAccess_iff {a : Access} {w : Width} {off : Nat} {v : Word} (ha : a = .read w off ∨ a = .write w off v) :
    legalAccess a = true ↔ w = .w32 ∧ off % 4 = 0 ∧ off < 0x40 := by
  rcases ha with rfl | rfl <;> simp [legalAccess, and_assoc]

/-- An access outside R61's condition has a problem that names why it is none. -/
theorem accessProblem_some {w : Width} {off : Nat} (h : ¬(w = .w32 ∧ off % 4 = 0 ∧ off < 0x40)) :
    ∃ r, accessProblem w off = some r :=
  Option.ne_none_iff_exists'.mp (mt accessProblem_none.mp h)

/-- An illegal access is refused in every state. -/
theorem hostAccess_refused {a : Access} (h : legalAccess a ≠ true) (s : State) : ∃ r, hostAccess a s = .refused r := by
  cases a with
  | read w off =>
    obtain ⟨r, hr⟩ := accessProblem_some (mt (legalAccess_iff (v := 0) (.inl rfl)).mpr h)
    exact ⟨r, by rw [hostAccess, hr]⟩
  | write w off v =>
    obtain ⟨r, hr⟩ := accessProblem_some (mt (legalAccess_iff (.inr rfl)).mpr h)
    exact ⟨r, by rw [hostAccess, hr]⟩

/-- Settles O28: the step is the access, which is refused or answers as `legalAccess` says. -/
theorem illegalAccessIsRefused : Obligations.IllegalAccessIsRefused := by
  intro s w off v rest a ha hin
  have hlegal := legalAccess_iff ha
  rw [step_access hin]
  refine ⟨fun hbad => hostAccess_refused (fun h => ?_) _, fun hw h4 hl => hostAccess_answers (hlegal.mpr ⟨hw, h4, hl⟩) _⟩
  obtain ⟨hw, h4, hl⟩ := hlegal.mp h
  rcases hbad with hw' | h4' | hl'
  · exact hw' hw
  · exact h4' h4
  · exact Nat.not_le_of_lt hl hl'

end Sys2Proof.Proofs
end

section
/-! The statements of 30_encoding.md: which words are decoded as which commands, and the order of the decoder's tests (O5,
O7), after the lemmas about the fields of a command word and the decoder's tests they share. -/

namespace Sys2Proof.Proofs

open Sys2Proof Sys2Proof.Machine Sys2Proof.Laws Sys2Proof.Laws.WordFields

/-! ## The fields of a command word -/

theorem opField_toNat (v : Word) : (opField v).toNat = v.toNat % 16 := BitVec.extractLsb'_toNat 0 4 v

theorem nbField_toNat (v : Word) : (nbField v).toNat = v.toNat / 16 % 8 := by
  rw [nbField, BitVec.extractLsb'_toNat, Nat.shiftRight_eq_div_pow]

theorem rsvdField_toNat (v : Word) : (rsvdField v).toNat = v.toNat / 128 := by
  rw [rsvdField, BitVec.extractLsb'_toNat, Nat.shiftRight_eq_div_pow]
  omega

/-- OP, NB and RSVD cover the word (R80). -/
theorem word_ext_fields {v w : Word} (hop : opField v = opField w) (hnb : nbField v = nbField w)
    (hrsvd : rsvdField v = rsvdField w) : v = w := by
  simp only [← BitVec.toNat_inj, opField_toNat, nbField_toNat, rsvdField_toNat] at *
  omega

theorem encode_fields (i : Instr) : Statement i := by
  cases i with
  | nop => exact WordFields.nop
  | init => exact WordFields.init
  | update nb => exact WordFields.update nb
  | digest => exact WordFields.digest

/-! ## The decoder, test by test -/

/-- OP is reserved, or is one of the four assigned values (R81). -/
theorem op_cases (op : BitVec 4) : 4 ≤ op.toNat ∨ op = 0 ∨ op = 1 ∨ op = 2 ∨ op = 3 := by
  revert op; decide

theorem opcodeMap_reserved {op : BitVec 4} (h : 4 ≤ op.toNat) (nb : BitVec 3) : opcodeMap op nb = none := by
  revert op; revert nb; decide

theorem opcodeMap_opOf (i : Instr) : opcodeMap (opOf i) (nbOf i) = some i := by
  cases i with
  | nop | init | update nb | digest => rfl

/-- The map names a command by its own OP, and takes the NB of an UPDATE from the word. -/
theorem opcodeMap_some {op : BitVec 4} {nb : BitVec 3} {i : Instr} (h : opcodeMap op nb = some i) :
    op = opOf i ∧ ∀ n, i = .update n → n = nb := by
  rcases op_cases op with hop | rfl | rfl | rfl | rfl
  · simp [opcodeMap_reserved hop] at h
  all_goals
    obtain rfl := Option.some.inj h
    simp [opOf]

/-- UPDATE takes NB 0 to 4, as a number (R84). -/
theorem checkNb_update (nb n : BitVec 3) :
    checkNb nb (.update n) = if 4 < n.toNat then .error .badNb else .ok (.update n) := by
  simp only [checkNb, Config.maxUpdateBytes, ← Nat.not_lt, ite_not]

/-- The other opcodes take NB 0 alone (R84). -/
theorem checkNb_not_update (nb : BitVec 3) {i : Instr} (hi : ∀ n, i ≠ .update n) :
    checkNb nb i = if nb.toNat ≠ 0 then .error .rsvdBits else .ok i := by
  have hnb : nb = 0#3 ↔ nb.toNat = 0 := by simp [← BitVec.toNat_inj]
  cases i with
  | update n => exact absurd rfl (hi n)
  | nop | init | digest => simp [checkNb, hnb]

/-- A well-formed command passes the test of its own NB. -/
theorem checkNb_nbOf {i : Instr} (h : i.wf = true) : checkNb (nbOf i) i = .ok i := by
  cases i with
  | nop | init | digest => rfl
  | update nb => exact if_pos (of_decide_eq_true h)

/-- A command that passed the test has the NB of the word. -/
theorem checkNb_ok_nb {nb : BitVec 3} {i : Instr} (h : checkNb nb i = .ok i) (hu : ∀ n, i = .update n → n = nb) :
    nb = nbOf i := by
  cases i with
  | update n => exact (hu n rfl).symm
  | nop | init | digest => simpa [checkNb, nbOf] using h

theorem decode_reservedOp {v : Word} (h : 4 ≤ (opField v).toNat) : decode v = .error .badOp := by
  rw [decode, opcodeMap_reserved h]

theorem decode_assignedOp {v : Word} {i : Instr} (h : opcodeMap (opField v) (nbField v) = some i) :
    decode v = if rsvdField v ≠ 0#25 then .error .rsvdBits else checkNb (nbField v) i := by
  rw [decode, h]

/-- A decoded word has passed the tests of OP, RSVD and NB. -/
theorem decode_tests {v : Word} {i : Instr} (h : decode v = .ok i) :
    opcodeMap (opField v) (nbField v) = some i ∧ rsvdField v = 0 ∧ checkNb (nbField v) i = .ok i := by
  cases hop : opcodeMap (opField v) (nbField v) with
  | none => simp [decode, hop] at h
  | some j =>
    rw [decode_assignedOp hop] at h
    split at h
    · cases h
    · next hrsvd =>
      obtain ⟨rfl, -⟩ := checkNb_ok h
      exact ⟨rfl, not_not.mp hrsvd, h⟩

/-- The words decoded as a command are those with its fields, if it is well formed. -/
theorem decode_ok_iff_fields {v : Word} {i : Instr} :
    decode v = .ok i ↔ i.wf = true ∧ opField v = opOf i ∧ nbField v = nbOf i ∧ rsvdField v = 0 := by
  constructor
  · intro h
    obtain ⟨hmap, hrsvd, hnb⟩ := decode_tests h
    obtain ⟨hop, hupdate⟩ := opcodeMap_some hmap
    exact ⟨decode_wf h, hop, checkNb_ok_nb hnb hupdate, hrsvd⟩
  · rintro ⟨hwf, hop, hnb, hrsvd⟩
    rw [decode_assignedOp (by rw [hop, hnb, opcodeMap_opOf]), hnb, hrsvd]
    exact checkNb_nbOf hwf

/-- Decoding inverts encoding, and accepts the word of a well-formed command only. -/
theorem decode_ok_iff {v : Word} {i : Instr} : decode v = .ok i ↔ i.wf = true ∧ encode i = v := by
  obtain ⟨hop, hnb, hrsvd⟩ := encode_fields i
  rw [decode_ok_iff_fields, ← hop, ← hnb, ← hrsvd]
  refine and_congr_right fun _ => ⟨fun ⟨hop', hnb', hrsvd'⟩ => (word_ext_fields hop' hnb' hrsvd').symm, ?_⟩
  rintro rfl
  exact ⟨rfl, rfl, rfl⟩

/-- An engine accepts a word when it is idle and the word is decoded. -/
theorem decodeCommand_ok_iff {v : Word} {busy : Bool} {i : Instr} :
    decodeCommand v busy = .ok i ↔ busy = false ∧ decode v = .ok i := by
  cases busy with
  | false | true => simp [decodeCommand]

/-! ## The accepted words -/

/-- The eight accepted words with their commands (R87). -/
def acceptedWords : List (Word × Instr) :=
  [(0x00000000#32, Instr.nop), (0x00000001#32, .init), (0x00000003#32, .digest), (0x00000002#32, .update 0),
    (0x00000012#32, .update 1), (0x00000022#32, .update 2), (0x00000032#32, .update 3), (0x00000042#32, .update 4)]

theorem encode_mem_acceptedWords {i : Instr} (h : i.wf = true) : (encode i, i) ∈ acceptedWords := by
  cases i with
  | nop | init | digest => decide
  | update nb => revert nb; decide

theorem wf_encode_of_mem_acceptedWords : ∀ p ∈ acceptedWords, p.2.wf = true ∧ encode p.2 = p.1 := by decide

theorem decode_ok_iff_mem {v : Word} {i : Instr} : decode v = .ok i ↔ (v, i) ∈ acceptedWords := by
  rw [decode_ok_iff]
  refine ⟨?_, wf_encode_of_mem_acceptedWords (v, i)⟩
  rintro ⟨hwf, rfl⟩
  exact encode_mem_acceptedWords hwf

/-- A word outside the eight is rejected, busy or not. -/
theorem decodeCommand_rejects {v : Word} (hv : v ∉ acceptedWords.map Prod.fst) (busy : Bool) :
    ∃ c, decodeCommand v busy = .error c := by
  cases h : decodeCommand v busy with
  | error c => exact ⟨c, rfl⟩
  | ok i => exact absurd (List.mem_map_of_mem (decode_ok_iff_mem.mp (decodeCommand_ok_iff.mp h).2)) hv

/-- Settles O5: a decoded word is its command's encoding (`decode_ok_iff`), and the eight pairs are those encodings. -/
theorem exactlyEightWordsAccepted : Obligations.ExactlyEightWordsAccepted :=
  ⟨fun _ _ => decode_ok_iff_mem, fun _ busy hv => decodeCommand_rejects hv busy,
    fun _ hnb => decode_ok_iff.mpr ⟨decide_eq_true hnb, rfl⟩⟩

/-! ## The order of the tests -/

/-- An accepted CMD write runs its command. -/
theorem step_acceptedWrite {s : State} {v : Word} {rest : List Event} {i : Instr}
    (h : s.port.inputs = .access (.write .w32 0x00 v) :: rest) (hi : decodeCommand v s.busy = .ok i) :
    step s = exec i (s.withInputs rest) := by
  rw [step_cmdWrite h]
  exact writeCmd_decoded (decodeCommand_ok_iff.mp hi).2 _

/-- Settles O7: each value of OP takes its own branch of the chain, by `decode_reservedOp` or `decode_assignedOp`. -/
theorem decodeTestsInOrder : Obligations.DecodeTestsInOrder := by
  refine ⟨rfl, rfl, rfl, rfl, fun s v rest hin => ⟨fun i => step_acceptedWrite hin, fun c => step_rejectedWrite hin⟩,
    fun v busy => ?_⟩
  have hrsvd : rsvdField v ≠ 0#25 ↔ (rsvdField v).toNat ≠ 0 := by simp [← BitVec.toNat_inj]
  rw [← opField_toNat, ← nbField_toNat, ← rsvdField_toNat]
  cases busy with
  | true => rfl
  | false =>
    show decode v = _
    rcases op_cases (opField v) with hop | hop | hop | hop | hop
    · rw [decode_reservedOp hop]
      simp [hop]
    · rw [decode_assignedOp (i := .nop) (by rw [hop]; rfl)]
      simp [hop, hrsvd, checkNb_not_update]
    · rw [decode_assignedOp (i := .init) (by rw [hop]; rfl)]
      simp [hop, hrsvd, checkNb_not_update]
    · rw [decode_assignedOp (i := .update (nbField v)) (by rw [hop]; rfl)]
      simp [hop, hrsvd, checkNb_update]
    · rw [decode_assignedOp (i := .digest) (by rw [hop]; rfl)]
      simp [hop, hrsvd, checkNb_not_update]

end Sys2Proof.Proofs
end

section
/-! The statements of 42_padding.md: PHASE, the padded bytes and their length suffix, and finalization (O33, O45, O46,
O47), after the lemmas about bytes as numbers, the zero fill and compression of one and two blocks they share. -/

namespace Sys2Proof.Proofs

open Sys2Proof Sys2Proof.Machine Sys2Proof.Laws

/-! ## PHASE -/

theorem writeStatus_phase (v : Word) (s : State) : (writeStatus v s).phase = s.phase := by
  cases hv : v.getLsbD 2 with
  | false => rw [writeStatus_no_bit2 hv]
  | true => rw [writeStatus_bit2 hv, acknowledgeError_phase]

/-- A host access other than a CMD write leaves PHASE (R152). -/
theorem hostAccess_phase {a : Access} {s t : State} (h : hostAccess a s = .next t)
    (ha : ∀ (w : Width) (v : Word), a ≠ .write w 0x00 v) : t.phase = s.phase := by
  rcases hostAccess_cases h with ⟨off, -, rfl⟩ | ⟨v, rfl, -⟩ | ⟨v, -, rfl⟩ | ⟨v, -, rfl⟩ | ⟨off, v, -, -, rfl⟩
  · rfl
  · exact absurd rfl (ha .w32 v)
  · exact writeStatus_phase v s
  · rfl
  · rfl

/-- Only OUTPUT reads as 3, and the invariant excludes it. -/
theorem phaseCode_ne_three {s : State} (hs : StateInv s) : phaseCode s.phase ≠ 3 := fun h3 =>
  absurd (phaseCode_le_two hs.phase_output) (by rw [h3]; decide)

/-- Settles O33: the completions and the exception by their laws, the other accesses by `hostAccess_phase`. -/
theorem phaseFollowsStateMachine : Obligations.PhaseFollowsStateMachine := by
  refine ⟨fun s => ⟨applyReset_phase s, complete_init_phase s, complete_digest_phase s, complete_nop_phase s⟩,
    fun s d => complete_update_phase s d, fun s hp => ⟨_, exec_idle (i := .digest) hp rfl, beginFinalizing_phase _⟩,
    takeInvalidInput_phase, fun s t a rest hin ha ht => ?_, fun s hs => ⟨hs.phase_finalizing, phaseCode_ne_three hs⟩⟩
  rw [step_access hin] at ht
  exact (hostAccess_phase ht ha).trans (withInputs_phase s rest)

/-! ## Bytes as numbers -/

/-- Byte `j` of the eight, as a number: the most significant comes first (R10). -/
theorem bytes64_getD_toNat (v : BitVec 64) {j : Nat} (hj : j < 8) :
    ((bytes64 v).getD j 0).toNat = v.toNat / 2 ^ (56 - 8 * j) % 256 := by
  have hbyte : (bytes64 v).getD j 0 = v.extractLsb' (56 - 8 * j) 8 := by
    interval_cases j <;> rfl
  rw [hbyte, BitVec.extractLsb'_toNat, Nat.shiftRight_eq_div_pow]

/-- Byte `j` of the four, as a number: the most significant comes first (R10). -/
theorem bytes32_getD_toNat (w : Word) {j : Nat} (hj : j < 4) :
    ((bytes32 w).getD j 0).toNat = w.toNat / 2 ^ (24 - 8 * j) % 256 := by
  have hbyte : (bytes32 w).getD j 0 = w.extractLsb' (24 - 8 * j) 8 := by
    interval_cases j <;> rfl
  rw [hbyte, BitVec.extractLsb'_toNat, Nat.shiftRight_eq_div_pow]

/-! ## The length suffix -/

/-- Byte `j` of the suffix, as a number (R140). -/
theorem lengthSuffix_getD_toNat (total : BitVec 64) {j : Nat} (hj : j < 8) :
    ((lengthSuffix total).getD j 0).toNat = total.toNat * 8 % 2 ^ 64 / 2 ^ (56 - 8 * j) % 256 := by
  rw [lengthSuffix, bytes64_getD_toNat _ hj, BitVec.toNat_mul]
  rfl

theorem lengthSuffix_eq_ofNat (total : BitVec 64) :
    lengthSuffix total = bytes64 (BitVec.ofNat 64 (total.toNat * 8 % 2 ^ 64)) :=
  congrArg bytes64 (BitVec.eq_of_toNat_eq (by simp))

/-- The bit count is bits 60:0 of the total moved up by 3 (R141). -/
theorem mul_eight_eq_shiftLeft (total : BitVec 64) : total * 8#64 = (total.extractLsb' 0 61).setWidth 64 <<< 3 := by
  apply BitVec.eq_of_toNat_eq
  simp only [BitVec.toNat_mul, BitVec.toNat_shiftLeft, BitVec.toNat_setWidth, BitVec.extractLsb'_toNat,
    BitVec.toNat_ofNat, Nat.shiftLeft_eq, Nat.shiftRight_zero]
  omega

theorem lengthSuffix_eq_shiftLeft (total : BitVec 64) :
    lengthSuffix total = bytes64 ((total.extractLsb' 0 61).setWidth 64 <<< 3) := by
  rw [lengthSuffix, mul_eight_eq_shiftLeft]

/-- The low 3 bits of the suffix are 0 (R141). -/
theorem lengthSuffix_low_bits (total : BitVec 64) : ((lengthSuffix total).getD 7 0).toNat % 8 = 0 := by
  rw [lengthSuffix_getD_toNat total (by decide)]
  omega

/-- Bits 63:61 of the total do not reach the suffix (R141). -/
theorem lengthSuffix_congr {total other : BitVec 64} (h : other.extractLsb' 0 61 = total.extractLsb' 0 61) :
    lengthSuffix other = lengthSuffix total := by
  rw [lengthSuffix_eq_shiftLeft, lengthSuffix_eq_shiftLeft, h]

/-- The suffix ends the padded bytes of every buffer. -/
theorem pad_drop_suffix (buf : List Byte) (total : BitVec 64) :
    (pad buf total).drop ((pad buf total).length - 8) = lengthSuffix total :=
  List.drop_left' (by rw [pad_length]; simp; omega)

/-- Settles O46: each reading of the suffix is a lemma of its own; DIGEST pads with TOTAL_LEN by its completion's law. -/
theorem lengthSuffixIsBitCount : Obligations.LengthSuffixIsBitCount :=
  ⟨fun total => ⟨lengthSuffix_eq_ofNat total, lengthSuffix_eq_shiftLeft total, lengthSuffix_low_bits total,
    fun _ => lengthSuffix_congr⟩, fun buf total _ => pad_drop_suffix buf total, complete_digest_digest⟩

/-! ## The zero fill -/

/-- Buffer, marker and zero fill end 8 bytes short of a block (R140). -/
theorem zeroFill_mod (l : Nat) : (l + 1 + zeroFill l) % 64 = 56 := by
  unfold zeroFill
  omega

/-- No shorter fill does (R140). -/
theorem zeroFill_le {l y : Nat} (h : (l + 1 + y) % 64 = 56) : zeroFill l ≤ y := by
  unfold zeroFill
  omega

/-- The second padded block of a buffer of 56 to 63 bytes holds no byte of the buffer and no marker (R142). -/
theorem pad_drop_long {buf : List Byte} (h : 56 ≤ buf.length) (h' : buf.length ≤ 63) (total : BitVec 64) :
    (pad buf total).drop 64 = List.replicate 56 0#8 ++ lengthSuffix total := by
  have hfill : zeroFill buf.length = (63 - buf.length) + 56 := by
    rw [zeroFill_long h h']
    omega
  have hpad : pad buf total =
      (buf ++ [0x80#8] ++ List.replicate (63 - buf.length) 0#8) ++ (List.replicate 56 0#8 ++ lengthSuffix total) := by
    rw [pad, hfill, List.replicate_add]
    simp only [List.append_assoc]
  rw [hpad]
  exact List.drop_left' (by simp; omega)

/-- Settles O45: the count is `zeroFill` of the buffer's length, and `pad_drop_long` gives the second block. -/
theorem paddingFillsOneOrTwoBlocks : Obligations.PaddingFillsOneOrTwoBlocks := by
  intro buf total hbuf
  refine ⟨zeroFill buf.length, rfl, lengthSuffix_length total, fun j => lengthSuffix_getD_toNat total,
    zeroFill_mod buf.length, fun y => zeroFill_le, fun hshort => ?_, fun hlong => ?_⟩
  · exact ⟨zeroFill_short hshort, pad_length_short hshort total⟩
  · exact ⟨zeroFill_long hlong hbuf, pad_length_long hlong hbuf total, pad_drop_long hlong hbuf total⟩

/-! ## Finalization -/

theorem compressBlocks_one {bs : List Byte} (h : bs.length = 64) (c : Words8) : compressBlocks 1 c bs = compress c bs := by
  rw [compressBlocks, compressBlocks, List.take_of_length_le h.le]

theorem compressBlocks_two {bs : List Byte} (h : bs.length = 128) (c : Words8) :
    compressBlocks 2 c bs = compress (compress c (bs.take 64)) (bs.drop 64) := by
  rw [compressBlocks, compressBlocks_one (by simp [h])]

theorem finalize_short {buf : List Byte} (h : buf.length ≤ 55) (c : Words8) (total : BitVec 64) :
    finalize c buf total = compress c (pad buf total) := by
  have hlen := pad_length_short h total
  rw [finalize, hlen]
  exact compressBlocks_one hlen c

theorem finalize_long {buf : List Byte} (h : 56 ≤ buf.length) (h' : buf.length ≤ 63) (c : Words8) (total : BitVec 64) :
    finalize c buf total = compress (compress c ((pad buf total).take 64)) ((pad buf total).drop 64) := by
  have hlen := pad_length_long h h' total
  rw [finalize, hlen]
  exact compressBlocks_two hlen c

theorem digestBytes_eq (x : Words8) :
    digestBytes x =
      bytes32 x.w0 ++ bytes32 x.w1 ++ bytes32 x.w2 ++ bytes32 x.w3 ++ bytes32 x.w4 ++ bytes32 x.w5 ++ bytes32 x.w6 ++
        bytes32 x.w7 := by
  simp [digestBytes, words8List]

/-- Settles O47: one padded block or two, by `finalize_short` and `finalize_long`. -/
theorem finalizeCompressesPaddedBlocks : Obligations.FinalizeCompressesPaddedBlocks := by
  refine ⟨fun h buf total hbuf => ?_, digestBytes_eq, fun w => ⟨bytes32_length w, fun j => bytes32_getD_toNat w⟩⟩
  split
  case isTrue hshort => exact finalize_short hshort h total
  case isFalse hlong => exact finalize_long (by omega) hbuf h total

end Sys2Proof.Proofs
end

section
/-! The statements of 43_compression.md on the message schedule and the rounds (O40, O42), after the lemmas about the
zero block, one round as sums and the sequence of working variables they rest on. -/

namespace Sys2Proof.Proofs

open Sys2Proof Sys2Proof.Machine Sys2Proof.Laws

/-! ## The message schedule -/

/-- A block's own word as a number: its first byte is the most significant (R175). -/
theorem schedule_block_toNat {blk : List Byte} {i : Nat} (h : i < 16) :
    ((schedule blk).getD i 0).toNat =
      (blk.getD (4 * i) 0).toNat * 2 ^ 24 + (blk.getD (4 * i + 1) 0).toNat * 2 ^ 16 + (blk.getD (4 * i + 2) 0).toNat * 2 ^ 8 +
        (blk.getD (4 * i + 3) 0).toNat := by
  rw [schedule_block h, blockWord, be32_toNat]

theorem blockWord_zeros (n i : Nat) : blockWord (List.replicate n 0) i = 0 := by
  have hbyte : ∀ j, (List.replicate n (0 : Byte)).getD j 0 = 0 := fun j => by
    rw [List.getD_eq_getElem?_getD, List.getElem?_replicate]
    split <;> rfl
  rw [blockWord, hbyte, hbyte, hbyte, hbyte]
  rfl

theorem scheduleWord_zeros : scheduleWord 0 0 0 0 = 0 := by decide

/-- The recurrence of R176 keeps zero words zero. -/
theorem schedule_zeros (i : Nat) (h : i < 64) : (schedule (List.replicate 64 0)).getD i 0 = 0 := by
  induction i using Nat.strongRecOn with
  | ind i ih =>
    by_cases hi : i < 16
    · rw [schedule_block hi, blockWord_zeros]
    · rw [schedule_step (by omega) h, ih (i - 16) (by omega) (by omega), ih (i - 15) (by omega) (by omega),
        ih (i - 7) (by omega) (by omega), ih (i - 2) (by omega) (by omega), scheduleWord_zeros]

/-- Settles O40: the block's words by `schedule_block_toNat`, the later ones by `schedule_step`, the zero block by
`schedule_zeros`; the example of "abc" is evaluated. -/
theorem scheduleFollowsRecurrence : Obligations.ScheduleFollowsRecurrence := by
  refine ⟨fun blk _ => ⟨schedule_length blk, fun i => schedule_block_toNat, fun i h16 h64 => ?_, ?_⟩, by decide +kernel⟩
  · rw [schedule_step h16 h64, scheduleWord_eq]
  · rintro rfl
    exact schedule_zeros

/-! ## One round and the feed-forward as sums -/

theorem temp1_eq (v : Working) (k w : Word) : temp1 v k w = v.h + bigSigma1 v.e + ch v.e v.f v.g + k + w := by
  simp [temp1, add32]

theorem temp2_eq (v : Working) : temp2 v = bigSigma0 v.a + maj v.a v.b v.c := by
  simp [temp2, add32]

theorem shaRound_eq (v : Working) (k w : Word) :
    shaRound v k w = ⟨temp1 v k w + temp2 v, v.a, v.b, v.c, v.d + temp1 v k w, v.e, v.f, v.g⟩ := by
  simp [shaRound, add32]

theorem feedForward_eq (c : Words8) (v : Working) :
    feedForward c v =
      ⟨c.w0 + v.a, c.w1 + v.b, c.w2 + v.c, c.w3 + v.d, c.w4 + v.e, c.w5 + v.f, c.w6 + v.g, c.w7 + v.h⟩ := by
  simp [feedForward, add32]

/-! ## The 64 rounds -/

section
variable {blk : List Byte} {v : Nat → Working}
  (hround : ∀ t, t < 64 → v (t + 1) = shaRound (v t) (kAt t) ((schedule blk).getD t 0))
include hround

/-- A sequence that takes one round at each step is, at `t`, the fold of the first `t` rounds. -/
theorem rounds_take_eq_of_round (t : Nat) (h : t ≤ 64) : rounds (v 0) ((kRom.zip (schedule blk)).take t) = v t := by
  induction t with
  | zero => rfl
  | succ t ih => rw [rounds_take_succ _ (schedule_length blk) h, ih (by omega), hround t h]

theorem compress_eq_of_round {c : Words8} (hload : v 0 = loadWorking c) : compress c blk = feedForward c (v 64) := by
  rw [compress, ← hload, rounds_all _ (schedule_length blk), rounds_take_eq_of_round hround 64 le_rfl]

end

/-- Settles O42: the sequence given takes `shaRound` at each step, so `compress_eq_of_round` applies; the values of round
0 of "abc" are evaluated. -/
theorem compressIsSixtyFourRounds : Obligations.CompressIsSixtyFourRounds := by
  refine ⟨fun c blk v hload hstep => ?_, by decide, by decide, by decide, by decide⟩
  have hround : ∀ t, t < 64 → v (t + 1) = shaRound (v t) (kAt t) ((schedule blk).getD t 0) := by
    intro t ht
    obtain ⟨t1, t2, ht1, ht2, hv⟩ := hstep t ht
    rw [← temp1_eq] at ht1
    rw [← temp2_eq] at ht2
    rw [hv, shaRound_eq, ht1, ht2]
  rw [compress_eq_of_round hround hload, feedForward_eq]

end Sys2Proof.Proofs
end

section
/-! The statement of 60_exceptions.md on a rejected command word (O13), after the lemma about the engine's step that
follows the exception. -/

namespace Sys2Proof.Proofs

open Sys2Proof Sys2Proof.Machine Sys2Proof.Laws

/-- The engine's step after the exception is the engine's step without it, ERR and ERRCODE apart (R203). -/
theorem engineStep_takeInvalidInput (c : InvalidInput) (s : State) :
    engineStep (takeInvalidInput c s) =
      { engineStep s with err := (takeInvalidInput c s).err, errcode := (takeInvalidInput c s).errcode } := by
  rw [← engineStep_errs, takeInvalidInput_err, takeInvalidInput_errcode, ← takeInvalidInput_eq]

/-- Settles O13: a rejected write takes the exception, which keeps PEND and which the engine's step does not read. -/
theorem rejectedWordRaisesInvalidInput : Obligations.RejectedWordRaisesInvalidInput :=
  ⟨fun s _ rest c hin hc => ⟨takeInvalidInput c (s.withInputs rest), step_rejectedWrite hin hc, rfl,
    takeInvalidInput_pend c _, engineStep_takeInvalidInput c _⟩, rfl, rfl, rfl, rfl⟩

end Sys2Proof.Proofs
end

section
/-! The statements of 70_reset_and_hazards.md on INIT against reset and on a CMD write to a busy engine (O3, O14), after
what tells the two results apart, what a busy engine makes of a CMD word, and what the exception leaves. -/

namespace Sys2Proof.Proofs

open Sys2Proof Sys2Proof.Machine Sys2Proof.Laws

/-! ## Reset and INIT -/

/-- The completion of INIT is reset but for ERR, ERRCODE, DATA_IN, PHASE and the hidden state (R232). -/
theorem complete_init_eq_applyReset (s : State) :
    complete .init s =
      { applyReset s with
        err := s.err, errcode := s.errcode, dataIn := s.dataIn, phase := .accumulating
        seq := { s.seq with ctl := .idle } } :=
  rfl

/-- Settles O3: with the five fields overwritten, the two sides of `complete_init_eq_applyReset` are one state. -/
theorem initDiffersFromResetInThreeWays : Obligations.InitDiffersFromResetInThreeWays := by
  intro s
  refine ⟨complete_err .init s, complete_errcode .init s, complete_dataIn .init s, complete_init_phase s,
    applyReset_phase s, applyReset_err s, applyReset_errcode s, applyReset_dataIn s, ?_,
    fun hp => exec_busy hp .init, applyReset_pend s⟩
  rw [complete_init_eq_applyReset]

/-! ## A CMD write while BUSY -/

/-- A busy engine rejects every word with code 4, before it looks at the word (R84). -/
theorem decodeCommand_busy {busy : Bool} (h : busy = true) (v : Word) : decodeCommand v busy = .error .busy :=
  if_pos h

/-- With ERR and ERRCODE put back, the exception has changed nothing (R203). -/
theorem takeInvalidInput_restore (c : InvalidInput) (s : State) :
    { takeInvalidInput c s with err := s.err, errcode := s.errcode } = s := by
  rw [takeInvalidInput_eq]

/-- Settles O14: the write takes the exception of cause BUSY, all that it can change being ERR and ERRCODE. -/
theorem commandWhileBusyIsDropped : Obligations.CommandWhileBusyIsDropped := by
  intro s p v rest hp hin
  have hrejected : decodeCommand v s.busy = .error .busy := decodeCommand_busy (busy_of_pend_some hp) v
  exact ⟨takeInvalidInput .busy (s.withInputs rest), step_rejectedWrite hin hrejected,
    (takeInvalidInput_pend .busy _).trans hp, takeInvalidInput_err .busy _, takeInvalidInput_errcode .busy _,
    takeInvalidInput_restore .busy (s.withInputs rest)⟩

end Sys2Proof.Proofs
end

section
/-! The statements on command words and the step that takes them (O4, O6, O8, O9), after the lemmas about the rows of the
opcode table. -/

namespace Sys2Proof.Proofs

open Sys2Proof Sys2Proof.Machine Sys2Proof.Laws Sys2Proof.Laws.WordFields

/-! ## Decoding and encoding -/

/-- Settles O6: both directions are `decode_ok_iff`. -/
theorem decodeAndEncodeAgree : Obligations.DecodeAndEncodeAgree :=
  ⟨fun _ hwf => decode_ok_iff.mpr ⟨hwf, rfl⟩, fun _ _ hdec => decode_ok_iff.mp hdec⟩

/-- Settles O4: eight closed words, evaluated. -/
theorem commandWordsDecode : Obligations.CommandWordsDecode :=
  ⟨by decide, by decide, by decide, by decide, by decide, by decide, by decide, by decide⟩

/-- The word of an UPDATE whose NB is out of range fails the test of NB (R84). -/
theorem decode_encode_not_wf {i : Instr} (h : i.wf = false) : decode (encode i) = .error .badNb := by
  cases i with
  | nop | init | digest => cases h
  | update nb => revert nb; decide

/-! ## The rows of the opcode table -/

theorem opField_and (v w : Word) : opField (v &&& w) = opField v &&& opField w := BitVec.extractLsb'_and

theorem nbField_and (v w : Word) : nbField (v &&& w) = nbField v &&& nbField w := BitVec.extractLsb'_and

theorem rsvdField_and (v w : Word) : rsvdField (v &&& w) = rsvdField v &&& rsvdField w := BitVec.extractLsb'_and

theorem matchesWord_iff {r : OpRow} {v : Word} : r.matchesWord v = true ↔ v &&& r.mask = r.pattern := by
  simp [OpRow.matchesWord]

/-- A row's mask covers OP and RSVD, so that a word that matches the row has the pattern's. -/
theorem fields_of_matchesWord {r : OpRow} {v : Word} (hr : r ∈ opRows) (h : r.matchesWord v = true) :
    opField v = opField r.pattern ∧ rsvdField v = 0 := by
  have hmask : ∀ r ∈ opRows, opField r.mask = BitVec.allOnes 4 ∧ rsvdField r.mask = BitVec.allOnes 25 ∧
      rsvdField r.pattern = 0 := by decide
  obtain ⟨hop, hrsvd, hzero⟩ := hmask r hr
  rw [matchesWord_iff] at h
  constructor
  · rw [← h, opField_and, hop, BitVec.and_allOnes]
  · rw [← hzero, ← h, rsvdField_and, hrsvd, BitVec.and_allOnes]

/-- The patterns of the rows have different OPs. -/
theorem row_eq_of_opField_eq :
    ∀ r ∈ opRows, ∀ r' ∈ opRows, opField r.pattern = opField r'.pattern → r = r' := by decide

/-- Where the mask covers NB too, the word's NB is 0. -/
theorem nbField_of_matchesWord {r : OpRow} {v : Word} (hmask : nbField r.mask = BitVec.allOnes 3)
    (hpat : nbField r.pattern = 0) (h : r.matchesWord v = true) : nbField v = 0 := by
  rw [matchesWord_iff] at h
  rw [← hpat, ← h, nbField_and, hmask, BitVec.and_allOnes]

/-- A word that matches a row is the word of a command, well formed or not. -/
theorem exists_encode_of_matchesWord {r : OpRow} {v : Word} (hr : r ∈ opRows) (h : r.matchesWord v = true) :
    ∃ i, encode i = v := by
  obtain ⟨hop, hrsvd⟩ := fields_of_matchesWord hr h
  have hword : ∀ i, opField v = opOf i → nbField v = nbOf i → ∃ i, encode i = v := fun i ho hn => by
    obtain ⟨hop', hnb', hrsvd'⟩ := encode_fields i
    exact ⟨i, word_ext_fields (hop'.trans ho.symm) (hnb'.trans hn.symm) (hrsvd'.trans hrsvd.symm)⟩
  simp only [opRows, List.mem_cons, List.not_mem_nil, or_false] at hr
  rcases hr with rfl | rfl | rfl | rfl
  · exact hword .nop hop (nbField_of_matchesWord (by decide) (by decide) h)
  · exact hword .init hop (nbField_of_matchesWord (by decide) (by decide) h)
  · exact hword (.update (nbField v)) hop rfl
  · exact hword .digest hop (nbField_of_matchesWord (by decide) (by decide) h)

/-- Each of the eight accepted words matches a row. -/
theorem acceptedWords_match : ∀ p ∈ acceptedWords, ∃ r ∈ opRows, r.matchesWord p.1 = true := by decide

/-- Settles O8: rows differ in OP, the accepted words match rows, and a word that matches a row is some command's word. -/
theorem tableRowsAreDisjoint : Obligations.TableRowsAreDisjoint := by
  refine ⟨fun v r r' hr hr' h h' => ?_, fun v i hdec => acceptedWords_match (v, i) (decode_ok_iff_mem.mp hdec),
    fun v r hr h => ?_⟩
  · exact row_eq_of_opField_eq r hr r' hr'
      ((fields_of_matchesWord hr h).1.symm.trans (fields_of_matchesWord hr' h').1)
  · obtain ⟨i, rfl⟩ := exists_encode_of_matchesWord hr h
    cases hwf : i.wf with
    | true => exact .inl ⟨i, decode_ok_iff.mpr ⟨hwf, rfl⟩⟩
    | false => exact .inr (decode_encode_not_wf hwf)

/-! ## The step of a CMD write -/

/-- A CMD write of a decoded word is its command's submission, at an idle engine or a busy one. -/
theorem step_decodedWrite {s : State} {v : Word} {rest : List Event} {i : Instr}
    (h : s.port.inputs = .access (.write .w32 0x00 v) :: rest) (hi : decode v = .ok i) :
    step s = exec i (s.withInputs rest) := by
  rw [step_cmdWrite h, writeCmd_decoded hi]

/-- A decoded table word is, cut to its bits, a decoded command word. -/
theorem decode_of_decodeTableWord {n w : Nat} {i : Instr} (h : decodeTableWord n w = some i) :
    decode (BitVec.ofNat 32 (w % 2 ^ n)) = .ok i := by
  simp only [decodeTableWord] at h
  split at h
  · cases hdec : decode (BitVec.ofNat 32 (w % 2 ^ n)) with
    | error c => simp [hdec] at h
    | ok j => simpa [hdec] using h
  · cases h

/-- Settles O9: `step_decodedWrite`, for the host's own write and for the one `withFetchWord` places. -/
theorem stepRunsDecodedCommand : Obligations.StepRunsDecodedCommand :=
  ⟨fun _ _ _ _ => step_decodedWrite, fun _ _ _ hw => step_decodedWrite rfl (decode_of_decodeTableWord hw)⟩

end Sys2Proof.Proofs
end

section
/-! The statements on single operations: the commands from submission to completion, the reset input, register reads and
frames (O2, O10, O15, O16, O17, O18, O19, O20, O21, O22, O24, O51), after what acceptance, the completing step and an
absorption of a few bytes are. -/

namespace Sys2Proof.Proofs

open Sys2Proof Sys2Proof.Machine Sys2Proof.Laws

/-! ## The completing step and reset -/

theorem step_complete {s : State} {rest : List Event} (h : s.port.inputs = .complete :: rest) :
    step s = .next (engineStep (s.withInputs rest)) :=
  step_cons h

/-- Settles O2: the reset input is `applyReset`, which keeps the boundary alone. -/
theorem resetInputRestoresResetState : Obligations.ResetInputRestoresResetState :=
  fun s rest hin => ⟨applyReset (s.withInputs rest), step_cons hin, rfl, rfl, rfl, rfl, rfl, rfl, rfl, rfl, rfl⟩

/-- Settles O10: with the inputs `complete :: rest` or none left, the step is `engineStep`. -/
theorem engineStepCompletesPending : Obligations.EngineStepCompletesPending := by
  refine ⟨fun s p rest hp hin => ⟨_, step_complete hin, engineStep_pending hp, engineStep_pend _⟩,
    fun s p hp hin => ⟨_, step_nil hin, engineStep_pending hp, engineStep_pend _⟩,
    fun s rest hp hin => ?_, fun s hp hin => ?_⟩
  · rw [step_complete hin, engineStep_idle (s := s.withInputs rest) hp]
  · rw [step_nil hin, engineStep_idle hp]

/-! ## Commands from submission to completion -/

theorem update_wf {nb : BitVec 3} (h : nb.toNat ≤ 4) : (Instr.update nb).wf = true := decide_eq_true h

/-- A well-formed command other than DIGEST, at an idle engine, is accepted and no more (R111, R112, R114). -/
theorem exec_accepts {s : State} (hp : s.pend = none) {i : Instr} (hi : i.wf = true) (hd : i ≠ .digest) :
    exec i s = .next (accept (recordOf s i) s) := by
  rw [exec_idle hp hi, if_neg hd]

/-- DIGEST at an idle engine is accepted, clears DVALID and enters FINALIZING (R116). -/
theorem exec_digest_idle {s : State} (hp : s.pend = none) :
    exec .digest s = .next (beginFinalizing (accept .digest s)) :=
  exec_idle hp rfl

/-- The step that completes a pending command when that comes next. -/
theorem step_completes {t : State} {p : Pending} (hp : t.pend = some p) (rest : List Event) :
    step (t.withInputs (.complete :: rest)) = .next (complete p (t.withInputs rest)) := by
  rw [step_complete rfl, withInputs_withInputs, engineStep_pending (s := t.withInputs rest) hp]

/-- Settles O15: acceptance, then the completion of NOP. -/
theorem nopRunsAndChangesNothing : Obligations.NopRunsAndChangesNothing :=
  fun s rest hp => ⟨accept .nop s, exec_accepts hp rfl nofun, rfl, step_completes (p := .nop) rfl rest⟩

/-- Settles O16: acceptance, then the completion of INIT. -/
theorem initRunsAndStartsNewMessage : Obligations.InitRunsAndStartsNewMessage :=
  fun s rest hp => ⟨accept .init s, exec_accepts hp rfl nofun, rfl, step_completes (p := .init) rfl rest⟩

/-- Settles O19: acceptance, then the completion of DIGEST, which finalizes the Hasher acceptance left. -/
theorem digestRunsAndWritesResult : Obligations.DigestRunsAndWritesResult :=
  fun s rest hp =>
    ⟨beginFinalizing (accept .digest s), exec_digest_idle hp, rfl, step_completes (p := .digest) rfl rest⟩

/-- Absorbing less than a block into less than a block compresses one block or none (R114). -/
theorem absorb_of_length_lt {d : List Byte} {x : Hasher} (h : x.buf.length + d.length < 128) :
    absorb d x =
      { h := if 64 ≤ (x.buf ++ d).length then compress x.h ((x.buf ++ d).take 64) else x.h
        buf := if 64 ≤ (x.buf ++ d).length then (x.buf ++ d).drop 64 else x.buf ++ d
        totalLen := x.totalLen + BitVec.ofNat 64 d.length } := by
  by_cases hfull : 64 ≤ (x.buf ++ d).length
  · have hblocks : (x.buf ++ d).length / 64 = 1 := by rw [List.length_append] at *; omega
    simp only [absorb, hblocks, if_pos hfull]
    rfl
  · have hblocks : (x.buf ++ d).length / 64 = 0 := by omega
    simp only [absorb, hblocks, if_neg hfull]
    rfl

theorem latchedBytes_length {nb : BitVec 3} (h : nb.toNat ≤ 4) (s : State) : (latchedBytes nb s).length = nb.toNat := by
  rw [latchedBytes, List.length_take, bytes32_length, Nat.min_eq_left h]

/-- The completion of UPDATE as one record. -/
theorem complete_update_eq (d : List Byte) (s : State) :
    complete (.update d) s =
      { s with
        live := absorb d s.live, dvalid := if 1 ≤ d.length then false else s.dvalid, phase := .accumulating, pend := none
        seq := { s.seq with ctl := .idle } } :=
  rfl

/-- Settles O17: acceptance, then the completion of UPDATE, whose Hasher `absorb_of_length_lt` gives. -/
theorem updateRunsAndAbsorbsBytes : Obligations.UpdateRunsAndAbsorbsBytes := by
  rintro s nb rest d all hp hnb hbuf hd rfl
  obtain rfl : d = latchedBytes nb s := hd
  have hlen : (latchedBytes nb s).length = nb.toNat := latchedBytes_length hnb s
  refine ⟨accept (.update (latchedBytes nb s)) s, exec_accepts hp (update_wf hnb) nofun, rfl, ?_⟩
  rw [step_completes (p := .update (latchedBytes nb s)) rfl rest, complete_update_eq, withInputs_live, accept_live,
    absorb_of_length_lt (by omega), hlen, BitVec.ofNat_toNat]
  rfl

/-- Settles O18: at an idle engine `exec_update_bad`, at a busy one `exec_busy`; both are the exception. -/
theorem commandsTakeInvalidInput : Obligations.CommandsTakeInvalidInput := by
  refine ⟨fun s nb hp hnb => ?_, fun s i hp => ?_⟩
  · rw [exec_update_bad hp hnb, takeInvalidInput_eq]
    rfl
  · rw [exec_busy hp, takeInvalidInput_eq]
    rfl

/-! ## Frames -/

/-- A register other than STATUS shows TOTAL_LEN, DATA_IN or DIGEST0..7 alone. -/
theorem readReg_congr {s t : State} (hlive : t.live = s.live) (hdigest : t.digest = s.digest) (hdata : t.dataIn = s.dataIn)
    {r : Reg} (hr : r ≠ .status) : readReg t r = readReg s r := by
  cases r with
  | status => exact absurd rfl hr
  | cmd | dataIn | lenLo | lenHi | digest k | reserved => simp only [readReg, hlive, hdigest, hdata]

/-- Settles O20: `exec_cases` leaves the exception and acceptance, whose laws give the frame. -/
theorem submissionFrame : Obligations.SubmissionFrame := by
  intro i s t h
  have hframe : t.live = s.live ∧ t.digest = s.digest ∧ t.dataIn = s.dataIn ∧ t.port = s.port := by
    rcases exec_cases h with ⟨-, rfl⟩ | ⟨-, -, rfl⟩ | ⟨-, -, rfl⟩ | ⟨-, -, -, rfl⟩ <;> simp
  obtain ⟨hlive, hdigest, hdata, hport⟩ := hframe
  refine ⟨hlive, hdigest, hdata, hport, fun r => readReg_congr hlive hdigest hdata, fun hp hwf => ?_, fun hi => ?_⟩
  · rcases exec_cases h with ⟨hbusy, -⟩ | ⟨-, hbad, -⟩ | ⟨-, -, rfl⟩ | ⟨-, -, -, rfl⟩
    · exact absurd hp hbusy
    · simp [hwf] at hbad
    · simp
    · simp
  · rcases exec_cases h with ⟨-, rfl⟩ | ⟨-, -, rfl⟩ | ⟨-, hd, -⟩ | ⟨-, -, -, rfl⟩
    · simp
    · simp
    · exact absurd hd hi
    · simp

/-- Settles O21: the laws of the four completions. -/
theorem completionFrame : Obligations.CompletionFrame := by
  intro p s
  refine ⟨complete_dataIn p s, complete_err p s, complete_errcode p s, complete_port p s, ?_, ?_, ?_⟩
  · rintro (rfl | rfl)
    · exact complete_nop_live s
    · exact complete_digest_live s
  · rintro (rfl | ⟨d, rfl⟩)
    · exact complete_nop_digest s
    · exact complete_update_digest s d
  · rintro rfl
    exact ⟨complete_nop_dvalid s, complete_nop_phase s⟩

/-- Settles O22: the record is `latchedBytes`, the first of the bytes `bytes32_getD_toNat` gives as numbers. -/
theorem latchedBytesAreBigEndian : Obligations.LatchedBytesAreBigEndian := by
  intro s t nb hp hnb h
  rw [exec_accepts hp (update_wf hnb) nofun] at h
  obtain rfl := Host.Outcome.next.inj h
  refine ⟨latchedBytes nb s, rfl, latchedBytes_length hnb s, fun j hj => ?_⟩
  rw [← bytes32_getD_toNat s.dataIn (by omega), latchedBytes, List.getD_eq_getElem?_getD, List.getElem?_take_of_lt hj,
    ← List.getD_eq_getElem?_getD]

/-- Settles O24: `regAt` names the register at each offset; the halves of TOTAL_LEN as numbers are its bit fields. -/
theorem registerMapReads : Obligations.RegisterMapReads := by
  intro s
  refine ⟨rfl, rfl, rfl, rfl, rfl, rfl, ?_, ?_, rfl, rfl, rfl, rfl, rfl, rfl, rfl, rfl⟩
  · exact BitVec.extractLsb'_toNat 0 32 s.live.totalLen
  · have hbound := s.live.totalLen.isLt
    show (s.live.totalLen.extractLsb' 32 32).toNat = _
    rw [BitVec.extractLsb'_toNat, Nat.shiftRight_eq_div_pow]
    omega

/-- Settles O51: what DIGEST's completion writes is not what it, or the Hasher of a later command, is made from. -/
theorem digestDoesNotDisturbMessage : Obligations.DigestDoesNotDisturbMessage := by
  refine fun s p => ⟨complete_digest_live s, rfl, ?_⟩
  cases p with
  | nop | init | update d | digest => rfl

end Sys2Proof.Proofs
end

section
/-! The statements on the datapath, the rolling window and the ROM (O36, O37, O38, O39, O41, O43, O44), after the window's
entries as words of the schedule and the integer parts of the roots. -/

namespace Sys2Proof.Proofs

open Sys2Proof Sys2Proof.Machine Sys2Proof.Laws

/-! ## Bits -/

/-- R160, its bit formula: the low bits come from the shifted word, the high ones from the wrapped part. -/
theorem rotr_getLsbD (x : Word) {n i : Nat} (hn : 0 < n) (hn' : n < 32) (hi : i < 32) :
    (rotr x n).getLsbD i = x.getLsbD ((i + n) % 32) := by
  rw [rotr, BitVec.getLsbD_or, BitVec.getLsbD_ushiftRight, BitVec.getLsbD_shiftLeft]
  by_cases hwrap : i + n < 32
  · have hlow : i < 32 - n := by omega
    rw [Nat.mod_eq_of_lt hwrap, Nat.add_comm n i]
    simp [hi, hlow]
  · have hhigh : ¬ i < 32 - n := by omega
    have hmod : (i + n) % 32 = i - (32 - n) := by omega
    rw [hmod, BitVec.getLsbD_of_ge x (n + i) (by omega)]
    simp [hi, hhigh]

/-- Settles O36. -/
theorem rotrMovesBits : Obligations.RotrMovesBits := fun x _ _ hn hn' hi => rotr_getLsbD x hn hn' hi

theorem ch_getLsbD (x y z : Word) {i : Nat} (hi : i < 32) :
    (ch x y z).getLsbD i = if x.getLsbD i then y.getLsbD i else z.getLsbD i := by
  have hselect : ∀ a b c : Bool, ((a && b) ^^ (!a && c)) = if a then b else c := by decide
  rw [ch, BitVec.getLsbD_xor, BitVec.getLsbD_and, BitVec.getLsbD_and, BitVec.getLsbD_not, decide_eq_true hi,
    Bool.true_and, hselect]

theorem maj_getLsbD (x y z : Word) (i : Nat) :
    (maj x y z).getLsbD i = decide (2 ≤ (x.getLsbD i).toNat + (y.getLsbD i).toNat + (z.getLsbD i).toNat) := by
  have hvote : ∀ a b c : Bool, ((a && b) ^^ (a && c) ^^ (b && c)) = decide (2 ≤ a.toNat + b.toNat + c.toNat) := by decide
  rw [maj, BitVec.getLsbD_xor, BitVec.getLsbD_xor, BitVec.getLsbD_and, BitVec.getLsbD_and, BitVec.getLsbD_and, hvote]

/-- Settles O37. -/
theorem chSelectsAndMajVotes : Obligations.ChSelectsAndMajVotes :=
  fun x y z i hi => ⟨ch_getLsbD x y z hi, maj_getLsbD x y z i⟩

/-- Settles O38: each sigma is an exclusive or, and its terms are `rotr_getLsbD` and `shr_getLsbD`. -/
theorem sigmasMixThreeTerms : Obligations.SigmasMixThreeTerms := by
  intro x i hi
  have hrotr : ∀ n, 0 < n → n < 32 → (rotr x n).getLsbD i = x.getLsbD ((i + n) % 32) :=
    fun n hn hn' => rotr_getLsbD x hn hn' hi
  simp [smallSigma0, smallSigma1, bigSigma0, bigSigma1, hrotr, shr_getLsbD]

/-! ## The adder chain -/

theorem add32_toNat (xs : List Word) : (add32 xs).toNat = (xs.map BitVec.toNat).sum % 2 ^ 32 := by
  induction xs with
  | nil => rfl
  | cons x xs ih => rw [add32_cons, BitVec.toNat_add, ih, List.map_cons, List.sum_cons, Nat.add_mod_mod]

/-- The sum does not depend on the order, and so neither does the chain (R163). -/
theorem add32_perm {xs ys : List Word} (h : xs.Perm ys) : add32 xs = add32 ys := by
  apply BitVec.eq_of_toNat_eq
  rw [add32_toNat, add32_toNat, (h.map BitVec.toNat).sum_eq]

/-- Settles O39. -/
theorem adderChainWraps : Obligations.AdderChainWraps := ⟨add32_toNat, fun _ _ => add32_perm⟩

/-! ## The rolling window -/

/-- The window of round `t` holds 16 words of the schedule, from word `t - 16` on: the block's own words until round 16
(R178). -/
def WindowAt (blk : List Byte) (t : Nat) (r : List Word) : Prop :=
  r.length = 16 ∧ ∀ j, j < 16 → r.getD j 0 = (schedule blk).getD (t - 16 + j) 0

theorem windowAt_zero (blk : List Byte) : WindowAt blk 0 (blockWords blk) :=
  ⟨blockWords_length blk, fun j hj => by rw [blockWords_getD hj, Nat.zero_sub, Nat.zero_add, schedule_block hj]⟩

/-- From round 16 on the new word is the schedule's (R176, R178). -/
theorem windowNew_eq {blk : List Byte} {t : Nat} {r : List Word} (h : WindowAt blk t r) (h16 : 16 ≤ t) (h64 : t < 64) :
    windowNew r = (schedule blk).getD t 0 := by
  obtain ⟨-, hword⟩ := h
  rw [windowNew, hword 0 (by omega), hword 1 (by omega), hword 9 (by omega), hword 14 (by omega), schedule_step h16 h64]
  congr 2 <;> omega

theorem windowWord_eq {blk : List Byte} {t : Nat} {r : List Word} (h : WindowAt blk t r) (h64 : t < 64) :
    windowWord t r = (schedule blk).getD t 0 := by
  by_cases h16 : t < 16
  · rw [windowWord, if_pos h16, h.2 t h16, Nat.sub_eq_zero_of_le h16.le, Nat.zero_add]
  · rw [windowWord, if_neg h16, windowNew_eq h (by omega) h64]

theorem windowAt_succ {blk : List Byte} {t : Nat} {r : List Word} (h : WindowAt blk t r) (h64 : t < 64) :
    WindowAt blk (t + 1) (windowShift t r) := by
  obtain ⟨hlen, hword⟩ := h
  by_cases h16 : t < 16
  · rw [windowShift, if_pos h16]
    refine ⟨hlen, fun j hj => ?_⟩
    rw [hword j hj, Nat.sub_eq_zero_of_le h16.le, Nat.sub_eq_zero_of_le h16]
  · rw [windowShift, if_neg h16]
    refine ⟨by simp [hlen], fun j hj => ?_⟩
    have hdrop : (r.drop 1).length = 15 := by simp [hlen]
    rw [List.getD_eq_getElem?_getD]
    by_cases hlast : j < 15
    · rw [List.getElem?_append_left (by omega), List.getElem?_drop, ← List.getD_eq_getElem?_getD, hword _ (by omega)]
      congr 1; omega
    · obtain rfl : j = 15 := by omega
      rw [List.getElem?_append_right (by omega), hdrop]
      show windowNew r = _
      rw [windowNew_eq ⟨hlen, hword⟩ (by omega) h64]
      congr 1; omega

/-- A sequence that starts at the block's words and shifts at each step is the window of each round. -/
theorem windowAt_of_shift {blk : List Byte} {r : Nat → List Word} (h0 : r 0 = blockWords blk)
    (hshift : ∀ t, t < 64 → r (t + 1) = windowShift t (r t)) (t : Nat) (ht : t ≤ 64) : WindowAt blk t (r t) := by
  induction t with
  | zero => rw [h0]; exact windowAt_zero blk
  | succ t ih => rw [hshift t ht]; exact windowAt_succ (ih (by omega)) ht

/-- Settles O41: the sequence is `WindowAt` at every round, which supplies the schedule's word. -/
theorem rollingWindowSuppliesSchedule : Obligations.RollingWindowSuppliesSchedule := by
  intro blk r h0 hshift t ht
  have hwindow := windowAt_of_shift h0 (fun t _ => hshift t) t ht.le
  exact ⟨hwindow.1, windowWord_eq hwindow ht⟩

/-! ## The ROM and the known digests -/

/-- The primes below 312 (R102). -/
def primesBelow312 : List Nat :=
  (List.range 312).filter (fun n => decide (2 ≤ n) && (List.range n).all (fun m => decide (m < 2) || n % m != 0))

/-- The integer part of the `k`-th root of a number below `8 ^ k`. -/
def intRoot (k p : Nat) : Nat := ((List.range 8).filter (fun c => decide (1 ≤ c) && decide (c ^ k ≤ p))).length

/-- The word `w` is the first 32 bits of the fractional part of the `k`-th root of `p`: after the root's integer part it
is the root of `p` scaled by `2 ^ (32 * k)`, rounded down. -/
def IsRootFraction (k p : Nat) (w : Word) : Prop :=
  (intRoot k p * 2 ^ 32 + w.toNat) ^ k ≤ p * 2 ^ (32 * k) ∧ p * 2 ^ (32 * k) < (intRoot k p * 2 ^ 32 + w.toNat + 1) ^ k

theorem exists_root_of_isRootFraction {k p : Nat} {w : Word} (h : IsRootFraction k p w) :
    ∃ c, c ^ k ≤ p * 2 ^ (32 * k) ∧ p * 2 ^ (32 * k) < (c + 1) ^ k ∧ w.toNat = c % 2 ^ 32 :=
  ⟨_, h.1, h.2, by rw [Nat.mul_add_mod_self_right, Nat.mod_eq_of_lt w.isLt]⟩

theorem iv_isRootFraction : ∀ i : Fin 8, IsRootFraction 2 (primesBelow312.getD i 0) (word8At iv i) := by
  unfold IsRootFraction; decide +kernel

theorem kAt_isRootFraction : ∀ t : Fin 64, IsRootFraction 3 (primesBelow312.getD t 0) (kAt t) := by
  unfold IsRootFraction; decide +kernel

/-- Settles O43: each word, after the integer part of its root, is checked to be the root rounded down. -/
theorem romHoldsRootsOfPrimes : Obligations.RomHoldsRootsOfPrimes := by
  rintro ps rfl
  exact ⟨fun i => exists_root_of_isRootFraction (iv_isRootFraction i),
    fun t => exists_root_of_isRootFraction (kAt_isRootFraction t)⟩

/-- Settles O44: the two digests are evaluated, one compression each. -/
theorem knownDigests : Obligations.KnownDigests := ⟨by decide +kernel, by decide +kernel⟩

end Sys2Proof.Proofs
end

section
/-! The statements on messages: the byte stream every step keeps, chunking, and the digest of a whole message (O48, O49,
O50), after what a completion does to a Hasher that stands for a stream. -/

namespace Sys2Proof.Proofs

open Sys2Proof Sys2Proof.Machine Sys2Proof.Laws

/-! ## The stream a Hasher stands for -/

theorem standsFor_created : StandsFor ⟨iv, [], 0⟩ [] := ⟨rfl, rfl, rfl⟩

theorem standsFor_absorb {x : Hasher} {m : List Byte} (h : StandsFor x m) (d : List Byte) :
    StandsFor (absorb d x) (m ++ d) := by
  rw [standsFor_iff] at *
  rw [h, absorb_absorb]

/-- Finalizing a Hasher gives the digest of the stream it stands for (R117). -/
theorem finalize_of_standsFor {x : Hasher} {m : List Byte} (h : StandsFor x m) :
    finalize x.h x.buf x.totalLen = sha256 m := by
  obtain ⟨hh, hbuf, htotal⟩ := h
  rw [hh, hbuf, htotal, sha256]

/-- A completion makes the Hasher stand for the stream after its command (R26). -/
theorem complete_standsFor {s : State} {m : List Byte} (h : StandsFor s.live m) (p : Pending) :
    StandsFor (complete p s).live (streamAfterCommand m p) := by
  cases p with
  | nop | digest => exact h
  | init => exact standsFor_created
  | update d => exact standsFor_absorb h d

theorem engineStep_standsFor {s : State} {m : List Byte} (h : StandsFor s.live m) :
    StandsFor (engineStep s).live (streamAfterEngine s m) := by
  cases hp : s.pend with
  | none => rw [engineStep_idle hp, streamAfterEngine, hp]; exact h
  | some p => rw [engineStep_pending hp, streamAfterEngine, hp]; exact complete_standsFor h p

/-- Settles O48: the engine's step by `engineStep_standsFor`, reset by `standsFor_created`; the other steps leave the
Hasher. -/
theorem streamIsKeptByEveryStep : Obligations.StreamIsKeptByEveryStep := by
  refine ⟨fun s t m hm h => ?_, standsFor_created⟩
  rcases step_cases h with ⟨hin, rfl⟩ | ⟨a, rest, hin, ha⟩ | ⟨rest, hin, rfl⟩ | ⟨rest, hin, rfl⟩ | ⟨rest, hin, rfl⟩ <;>
    rw [streamAfterStep, hin]
  · exact engineStep_standsFor hm
  · rw [(hostAccess_frame ha).1]
    exact hm
  · exact engineStep_standsFor (s := s.withInputs rest) hm
  · exact hm
  · exact standsFor_created

/-! ## Chunking -/

/-- Settles O49: `absorb_absorb` joins the chunks one by one, and absorbing leaves a short buffer. -/
theorem chunkingDoesNotMatter : Obligations.ChunkingDoesNotMatter := by
  intro x ds hx
  induction ds generalizing x with
  | nil => exact (absorb_nil hx).symm
  | cons d ds ih =>
    have hshort : (absorb d x).buf.length ≤ 63 := by
      rw [absorb_buf_length]
      omega
    rw [List.foldl_cons, ih _ hshort, absorb_absorb, List.flatten_cons]

/-! ## The digest of a whole message -/

theorem streamAfterCommand_eq_append {p : Pending} (hp : p ≠ .init) (m : List Byte) :
    streamAfterCommand m p = m ++ pendingBytes p := by
  cases p with
  | init => exact absurd rfl hp
  | nop | digest => exact (List.append_nil m).symm
  | update d => rfl

/-- Completions other than INIT's append the bytes of the UPDATEs in order. -/
theorem foldl_complete_standsFor {ps : List Pending} (hps : ∀ p ∈ ps, p ≠ .init) {s : State} {m : List Byte}
    (h : StandsFor s.live m) :
    StandsFor (ps.foldl (fun s p => complete p s) s).live (m ++ ps.flatMap pendingBytes) := by
  induction ps generalizing s m with
  | nil => simpa using h
  | cons p ps ih =>
    obtain ⟨hp, hrest⟩ := List.forall_mem_cons.mp hps
    have hnext := complete_standsFor h p
    rw [streamAfterCommand_eq_append hp] at hnext
    rw [List.flatMap_cons, ← List.append_assoc]
    exact ih hrest hnext

/-- Settles O50: INIT starts the empty stream, the completions after it append, and DIGEST finalizes. -/
theorem digestIsOfWholeMessage : Obligations.DigestIsOfWholeMessage := by
  rintro s t ps hps rfl
  refine ⟨?_, complete_digest_dvalid _⟩
  rw [complete_digest_digest]
  exact finalize_of_standsFor (foldl_complete_standsFor hps (m := []) standsFor_created)

end Sys2Proof.Proofs
end

section
/-! The statements on the machine's invariant and what it implies, and on which steps write results (O32, O34, O35, O52,
O53): the operations a step is made of keep the invariant one by one. -/

namespace Sys2Proof.Proofs

open Sys2Proof Sys2Proof.Machine Sys2Proof.Laws

/-! ## Operations that keep the invariant -/

/-- Settles O52: every clause is about a field `State.reset` lists. -/
theorem resetMeetsInvariant : Obligations.ResetMeetsInvariant where
  buf_short := by decide
  buf_total := by decide
  pend_bytes := nofun
  err_code := by decide
  err_code_le := by decide
  phase_finalizing := by decide
  phase_output := by decide
  phase_empty := fun _ => ⟨rfl, rfl, rfl⟩
  dvalid_pending := nofun
  dvalid_digest := nofun
  seq_idle := by decide

/-- The invariant speaks of neither DATA_IN nor the boundary, and of the hidden state's row alone. -/
theorem stateInv_congr {s t : State} (hs : StateInv s) (hlive : t.live = s.live) (hpend : t.pend = s.pend)
    (hdigest : t.digest = s.digest) (hdvalid : t.dvalid = s.dvalid) (herr : t.err = false ↔ t.errcode = 0)
    (hcode : t.errcode.toNat ≤ 4) (hphase : t.phase = s.phase) (hseq : t.seq.ctl = .idle ↔ t.pend = none) : StateInv t where
  buf_short := by rw [hlive]; exact hs.buf_short
  buf_total := by rw [hlive]; exact hs.buf_total
  pend_bytes := by rw [hpend]; exact hs.pend_bytes
  err_code := herr
  err_code_le := hcode
  phase_finalizing := by rw [hphase, hpend]; exact hs.phase_finalizing
  phase_output := by rw [hphase]; exact hs.phase_output
  phase_empty := by rw [hphase, hlive, hdigest, hdvalid]; exact hs.phase_empty
  dvalid_pending := by rw [hpend, hdvalid]; exact hs.dvalid_pending
  dvalid_digest := by rw [hdvalid, hdigest, hlive]; exact hs.dvalid_digest
  seq_idle := hseq

section
variable {s : State} (hs : StateInv s)
include hs

/-- DATA_IN and the boundary are free. -/
theorem stateInv_free (d : Word) (p : HostPort) : StateInv { s with dataIn := d, port := p } :=
  stateInv_congr hs rfl rfl rfl rfl hs.err_code hs.err_code_le rfl hs.seq_idle

theorem stateInv_takeInvalidInput (c : InvalidInput) : StateInv (takeInvalidInput c s) := by
  cases he : s.err with
  | true => rwa [takeInvalidInput_of_err he]
  | false =>
    rw [takeInvalidInput_of_no_err he]
    obtain ⟨hne, hle⟩ := code_range c
    exact stateInv_congr hs rfl rfl rfl rfl (iff_of_false (by simp) hne) hle rfl hs.seq_idle

theorem stateInv_acknowledgeError : StateInv (acknowledgeError s) :=
  stateInv_congr hs rfl rfl rfl rfl (iff_of_true rfl rfl) (by simp) rfl hs.seq_idle

theorem stateInv_writeStatus (v : Word) : StateInv (writeStatus v s) := by
  unfold writeStatus
  split
  · exact stateInv_acknowledgeError hs
  · exact hs

theorem stateInv_cycle : StateInv (cycle s) :=
  stateInv_congr hs rfl rfl rfl rfl hs.err_code hs.err_code_le rfl (seqStep_idle hs.seq_idle)

end

theorem firstRow_ne_idle (p : Pending) : firstRow p ≠ .idle := by cases p <;> nofun

/-- What acceptance other than DIGEST's leaves pending. -/
theorem recordOf_bytes {i : Instr} {s : State} (hi : i.wf = true) (d : List Byte) (h : recordOf s i = .update d) :
    d.length ≤ 4 := by
  cases i with
  | nop | init | digest => cases h
  | update nb =>
    obtain rfl : latchedBytes nb s = d := Pending.update.inj h
    rw [latchedBytes, List.length_take, bytes32_length]
    exact Nat.min_le_right _ _

theorem recordOf_ne_digest {i : Instr} (h : i ≠ .digest) (s : State) : recordOf s i ≠ .digest := by
  cases i with
  | digest => exact absurd rfl h
  | nop | init | update nb => nofun

theorem stateInv_acceptDigest {s : State} (hs : StateInv s) : StateInv (beginFinalizing (accept .digest s)) where
  buf_short := hs.buf_short
  buf_total := hs.buf_total
  pend_bytes := nofun
  err_code := hs.err_code
  err_code_le := hs.err_code_le
  phase_finalizing := iff_of_true rfl rfl
  phase_output := nofun
  phase_empty := nofun
  dvalid_pending := fun _ => rfl
  dvalid_digest := nofun
  seq_idle := iff_of_false (firstRow_ne_idle .digest) nofun

section
variable {s : State} (hs : StateInv s) (hp : s.pend = none)
include hs hp

/-- At an idle engine PHASE is not FINALIZING (R152). -/
theorem phase_ne_finalizing : s.phase ≠ .finalizing := fun h => by
  have := hs.phase_finalizing.mp h
  simp [hp] at this

theorem stateInv_accept {i : Instr} (hi : i.wf = true) (hd : i ≠ .digest) : StateInv (accept (recordOf s i) s) where
  buf_short := hs.buf_short
  buf_total := hs.buf_total
  pend_bytes := fun d h => recordOf_bytes hi d (Option.some.inj h)
  err_code := hs.err_code
  err_code_le := hs.err_code_le
  phase_finalizing := iff_of_false (phase_ne_finalizing (s := s) hs hp)
    (fun h => recordOf_ne_digest hd s (Option.some.inj h))
  phase_output := hs.phase_output
  phase_empty := hs.phase_empty
  dvalid_pending := fun h => absurd (Option.some.inj h) (recordOf_ne_digest hd s)
  dvalid_digest := hs.dvalid_digest
  seq_idle := iff_of_false (firstRow_ne_idle _) nofun

end

/-! ## Completions -/

/-- The buffer of a Hasher keeps pace with its count through an absorption (R26(c)). -/
theorem absorb_buf_total {x : Hasher} (h : x.buf.length = x.totalLen.toNat % 64) (d : List Byte) :
    (absorb d x).buf.length = (absorb d x).totalLen.toNat % 64 := by
  rw [absorb_buf_length]
  simp only [absorb, BitVec.toNat_add, BitVec.toNat_ofNat]
  omega

/-- After a completion PHASE is ACCUMULATING, but for NOP, which leaves it (R152). -/
theorem complete_phase_cases (p : Pending) (s : State) :
    (complete p s).phase = .accumulating ∨ p = .nop ∧ (complete p s).phase = s.phase := by
  cases p with
  | nop => exact .inr ⟨rfl, rfl⟩
  | init | update d | digest => exact .inl rfl

section
variable {s : State} (hs : StateInv s)
include hs

theorem complete_buf_short (p : Pending) : (complete p s).live.buf.length ≤ 63 := by
  cases p with
  | nop | digest => exact hs.buf_short
  | init => exact Nat.zero_le 63
  | update d =>
    rw [complete_update_live, absorb_buf_length]
    omega

theorem complete_buf_total (p : Pending) :
    (complete p s).live.buf.length = (complete p s).live.totalLen.toNat % 64 := by
  cases p with
  | nop | digest => exact hs.buf_total
  | init => rfl
  | update d => exact absorb_buf_total hs.buf_total d

/-- An UPDATE that keeps DVALID has absorbed nothing (R35). -/
theorem complete_dvalid_digest (p : Pending) (h : (complete p s).dvalid = true) :
    (complete p s).digest =
      finalize (complete p s).live.h (complete p s).live.buf (complete p s).live.totalLen := by
  cases p with
  | nop => exact hs.dvalid_digest h
  | init => cases h
  | digest => rfl
  | update d =>
    cases d with
    | nil =>
      rw [complete_update_digest, complete_update_live, absorb_nil hs.buf_short]
      exact hs.dvalid_digest h
    | cons b d => simp at h

theorem complete_phase_ne {p : Pending} (hp : s.pend = some p) :
    (complete p s).phase ≠ .finalizing ∧ (complete p s).phase ≠ .output := by
  rcases complete_phase_cases p s with hphase | ⟨rfl, hphase⟩
  · simp [hphase]
  · rw [hphase, ne_eq, hs.phase_finalizing, hp]
    exact ⟨nofun, hs.phase_output⟩

theorem stateInv_complete {p : Pending} (hp : s.pend = some p) : StateInv (complete p s) where
  buf_short := complete_buf_short hs p
  buf_total := complete_buf_total hs p
  pend_bytes := by simp
  err_code := by simpa using hs.err_code
  err_code_le := by simpa using hs.err_code_le
  phase_finalizing := iff_of_false (complete_phase_ne hs hp).1 (by simp)
  phase_output := (complete_phase_ne hs hp).2
  phase_empty := fun hempty => by
    rcases complete_phase_cases p s with hphase | ⟨rfl, hphase⟩
    · simp [hphase] at hempty
    · exact hs.phase_empty (hphase.symm.trans hempty)
  dvalid_pending := by simp
  dvalid_digest := complete_dvalid_digest hs p
  seq_idle := by simp

theorem stateInv_engineStep : StateInv (engineStep s) := by
  cases hp : s.pend with
  | none => rwa [engineStep_idle hp]
  | some p =>
    rw [engineStep_pending hp]
    exact stateInv_complete hs hp

/-! ## Every step -/

theorem stateInv_writeCmd {v : Word} {t : State} (h : writeCmd v s = .next t) : StateInv t := by
  rcases writeCmd_cases h with ⟨c, -, rfl⟩ | ⟨-, rfl⟩ | ⟨i, hp, hd, hi, rfl⟩
  · exact stateInv_takeInvalidInput hs c
  · exact stateInv_acceptDigest hs
  · exact stateInv_accept hs hp hi hd

theorem stateInv_hostAccess {a : Access} {t : State} (h : hostAccess a s = .next t) : StateInv t := by
  rcases hostAccess_cases h with ⟨off, -, rfl⟩ | ⟨v, -, hw⟩ | ⟨v, -, rfl⟩ | ⟨v, -, rfl⟩ | ⟨off, v, -, -, rfl⟩
  · exact stateInv_free hs s.dataIn _
  · exact stateInv_writeCmd hs hw
  · exact stateInv_writeStatus hs v
  · exact stateInv_free hs v s.port
  · exact hs

end

theorem stateInv_applyReset (s : State) : StateInv (applyReset s) :=
  stateInv_free resetMeetsInvariant State.reset.dataIn s.port

/-- Settles O53: using up an input keeps the invariant, and so does each step `step_cases` names. -/
theorem everyStepKeepsInvariant : Obligations.EveryStepKeepsInvariant := by
  intro s t hs h
  have hused : ∀ rest, StateInv (s.withInputs rest) := fun rest => stateInv_free hs s.dataIn _
  rcases step_cases h with ⟨-, rfl⟩ | ⟨a, rest, -, ha⟩ | ⟨rest, -, rfl⟩ | ⟨rest, -, rfl⟩ | ⟨rest, -, rfl⟩
  · exact stateInv_engineStep hs
  · exact stateInv_hostAccess (hused rest) ha
  · exact stateInv_engineStep (hused rest)
  · exact stateInv_cycle (hused rest)
  · exact stateInv_applyReset _

/-! ## The writers of the results -/

/-- Settles O32: the invariant's clause on DVALID with `finalize_of_standsFor`; its writers by their laws. -/
theorem dvalidMeansDigestIsCurrent : Obligations.DvalidMeansDigestIsCurrent := by
  refine ⟨fun s m hs hm hd => (hs.dvalid_digest hd).trans (finalize_of_standsFor hm),
    fun s => ⟨rfl, rfl, rfl, rfl, rfl⟩, fun s d hd => if_pos hd, fun s t hp h => ?_, takeInvalidInput_dvalid⟩
  rw [exec_digest_idle hp] at h
  obtain rfl := Host.Outcome.next.inj h
  rfl

/-- No host access sets DVALID (R35). -/
theorem hostAccess_dvalid {a : Access} {s t : State} (h : hostAccess a s = .next t) (ht : t.dvalid = true) :
    s.dvalid = true := by
  rcases hostAccess_cases h with ⟨off, -, rfl⟩ | ⟨v, -, hw⟩ | ⟨v, -, rfl⟩ | ⟨v, -, rfl⟩ | ⟨off, v, -, -, rfl⟩
  · exact ht
  · rcases writeCmd_cases hw with ⟨c, -, rfl⟩ | ⟨-, rfl⟩ | ⟨i, -, -, -, rfl⟩
    · rwa [takeInvalidInput_dvalid] at ht
    · cases ht
    · exact ht
  · unfold writeStatus at ht
    split at ht
    · exact ht
    · exact ht
  · exact ht
  · exact ht

/-- The engine's step comes next: the host does nothing more, or the completion is the next step. -/
def EngineStepNext (s : State) : Prop := s.port.inputs = [] ∨ ∃ rest, s.port.inputs = .complete :: rest

/-- All that a step can do to H, BUF, TOTAL_LEN, DIGEST0..7 and DVALID: reset, a completion's effect, or nothing but
clearing DVALID (R240). -/
theorem step_results {s t : State} (h : step s = .next t) :
    (∃ rest, s.port.inputs = .reset :: rest) ∨
    (EngineStepNext s ∧ s.pend ≠ none ∧ t.live = (engineStep s).live) ∨
    (t.live = s.live ∧ t.digest = s.digest ∧ (t.dvalid = true → s.dvalid = true)) := by
  rcases step_cases h with ⟨hin, rfl⟩ | ⟨a, rest, -, ha⟩ | ⟨rest, hin, rfl⟩ | ⟨rest, -, rfl⟩ | ⟨rest, hin, rfl⟩
  · by_cases hp : s.pend = none
    · rw [engineStep_idle hp]
      exact .inr (.inr ⟨rfl, rfl, id⟩)
    · exact .inr (.inl ⟨.inl hin, hp, rfl⟩)
  · obtain ⟨hlive, hdigest, -⟩ := hostAccess_frame ha
    exact .inr (.inr ⟨hlive, hdigest, hostAccess_dvalid (s := s.withInputs rest) ha⟩)
  · by_cases hp : s.pend = none
    · rw [engineStep_idle (s := s.withInputs rest) hp]
      exact .inr (.inr ⟨rfl, rfl, id⟩)
    · exact .inr (.inl ⟨.inr ⟨rest, hin⟩, hp, engineStep_live_congr rfl rfl⟩)
  · exact .inr (.inr ⟨rfl, rfl, id⟩)
  · exact .inl ⟨rest, hin⟩

/-- An absorption that completes no block leaves H (R114). -/
theorem absorb_h_of_short {d : List Byte} {x : Hasher} (h : x.buf.length + d.length < 64) : (absorb d x).h = x.h := by
  rw [absorb_of_length_lt (by omega)]
  exact if_neg (by rw [List.length_append]; omega)

/-- The completions that write H (R22). -/
theorem complete_changes_h {p : Pending} {s : State} (h : (complete p s).live.h ≠ s.live.h) :
    p = .init ∨ ∃ d, p = .update d ∧ 64 ≤ s.live.buf.length + d.length := by
  cases p with
  | nop | digest => exact absurd rfl h
  | init => exact .inl rfl
  | update d => exact .inr ⟨d, rfl, Nat.not_lt.mp fun hshort => h (absorb_h_of_short hshort)⟩

theorem readReg_ignores_h (s : State) (x : Words8) (r : Reg) :
    readReg { s with live := { s.live with h := x } } r = readReg s r := by
  cases r with
  | cmd | status | dataIn | lenLo | lenHi | digest k | reserved => rfl

/-- Settles O34: what a step does to the Hasher is `step_results`, and a completion's effect on H `complete_changes_h`. -/
theorem onlyThreeWritersOfH : Obligations.OnlyThreeWritersOfH := by
  refine ⟨fun s t h hne => ?_, readReg_ignores_h⟩
  rcases step_results h with hreset | ⟨hnext, hp, hlive⟩ | ⟨hlive, -, -⟩
  · exact .inl hreset
  · obtain ⟨p, hp⟩ := Option.ne_none_iff_exists'.mp hp
    rw [hlive, engineStep_pending hp] at hne
    refine .inr ⟨hnext, ?_⟩
    rcases complete_changes_h hne with rfl | ⟨d, rfl, hlen⟩
    · exact .inl hp
    · exact .inr ⟨d, hp, hlen⟩
  · exact absurd (congrArg Hasher.h hlive) hne

/-- Settles O35: of what `step_results` names, only the last case is left. -/
theorem resultsChangeOnlyAtCompletion : Obligations.ResultsChangeOnlyAtCompletion := by
  intro s t h hreset hidle
  rcases step_results h with ⟨rest, hin⟩ | ⟨hnext, hp, -⟩ | hkept
  · exact absurd hin (hreset rest)
  · exact absurd (hidle hnext) hp
  · exact hkept

end Sys2Proof.Proofs
end

section
/-! The statements on runs with legal inputs (O11, O12, O29): a legal step answers, uses up one input and, short of a
completion or reset, keeps what a completion is made from. -/

namespace Sys2Proof.Proofs

open Sys2Proof Sys2Proof.Machine Sys2Proof.Laws

/-! ## Legal steps -/

/-- A legal event answers a next state (R61, R205). -/
theorem runEvent_answers {e : Event} (h : legalEvent e = true) (s : State) : ∃ t, runEvent e s = .next t := by
  cases e with
  | access a => exact hostAccess_answers h s
  | complete | cycle | reset => exact ⟨_, rfl⟩

/-- A legal step to come is taken, and used up. -/
theorem step_legal {s : State} {e : Event} {rest : List Event} (hin : s.port.inputs = e :: rest)
    (he : legalEvent e = true) : ∃ t, step s = .next t ∧ t.port.inputs = rest := by
  obtain ⟨t, ht⟩ := runEvent_answers he (s.withInputs rest)
  have hstep : step s = .next t := (step_cons hin).trans ht
  exact ⟨t, hstep, step_inputs hin hstep⟩

/-- Settles O29: the engine's step always answers, and a legal event does by `step_legal`. -/
theorem legalInputsNeverStop : Obligations.LegalInputsNeverStop := by
  intro s hs
  unfold LegalInputs at *
  cases hin : s.port.inputs with
  | nil => exact ⟨engineStep s, step_nil hin, by simp [hin]⟩
  | cons e rest =>
    rw [hin, List.forall_mem_cons] at hs
    obtain ⟨t, ht, hrest⟩ := step_legal hin hs.1
    exact ⟨t, ht, by rw [hrest]; exact hs.2⟩

/-! ## Runs -/

theorem run_one {s t : State} (h : step s = .next t) : Host.Core.run Sys2Proof.core 1 s = .next t :=
  run_step (n := 0) h

/-- With `es` to come, all legal, the run takes them and then the engine's step. -/
theorem run_legal {es : List Event} (hes : ∀ e ∈ es, legalEvent e = true) {s : State} (hin : s.port.inputs = es) :
    ∃ t : State, Host.Core.run Sys2Proof.core (es.length + 1) s = .next t ∧ t.pend = none ∧ t.port.inputs = [] := by
  induction es generalizing s with
  | nil => exact ⟨engineStep s, run_one (step_nil hin), engineStep_pend s, by rw [engineStep_port, hin]⟩
  | cons e es ih =>
    obtain ⟨he, hrest⟩ := List.forall_mem_cons.mp hes
    obtain ⟨t, ht, hin'⟩ := step_legal hin he
    obtain ⟨u, hu, hdone⟩ := ih hrest hin'
    exact ⟨u, (run_step ht).trans hu, hdone⟩

/-- Settles O12: the inputs to come are the run's own. -/
theorem pendingCommandCompletes : Obligations.PendingCommandCompletes := fun _ hs => run_legal hs rfl

/-! ## The result of a pending command -/

/-- Two states that a completion makes the same results from (R110). -/
def SameResults (s t : State) : Prop :=
  t.live = s.live ∧ t.digest = s.digest ∧ t.dvalid = s.dvalid ∧ t.phase = s.phase

/-- Between acceptance and completion a legal host access or internal step keeps the command and what its completion is
made from. -/
theorem step_keeps_pending {s : State} {p : Pending} {e : Event} {rest : List Event} (hp : s.pend = some p)
    (hin : s.port.inputs = e :: rest) (he : legalEvent e = true ∧ e ≠ .complete ∧ e ≠ .reset) :
    ∃ t, step s = .next t ∧ t.port.inputs = rest ∧ t.pend = some p ∧ SameResults s t := by
  obtain ⟨hlegal, hcomplete, hreset⟩ := he
  obtain ⟨t, ht, hrest⟩ := step_legal hin hlegal
  refine ⟨t, ht, hrest, ?_⟩
  rw [step_cons hin] at ht
  cases e with
  | complete => exact absurd rfl hcomplete
  | reset => exact absurd rfl hreset
  | cycle =>
    obtain rfl := Host.Outcome.next.inj ht
    exact ⟨hp, rfl, rfl, rfl, rfl⟩
  | access a =>
    obtain ⟨hpend, hlive, hdigest, hdvalid, hphase, -⟩ := hostAccess_pending (s := s.withInputs rest) hp ht
    exact ⟨hpend, hlive, hdigest, hdvalid, hphase⟩

/-- However many such steps come first, the completion makes the results it would have made at once. -/
theorem run_to_completion {es : List Event} (hes : ∀ e ∈ es, legalEvent e = true ∧ e ≠ .complete ∧ e ≠ .reset)
    {s : State} {p : Pending} (hp : s.pend = some p) (hin : s.port.inputs = es ++ [.complete]) :
    ∃ t : State, Host.Core.run Sys2Proof.core (es.length + 1) s = .next t ∧ t.pend = none ∧
      SameResults (complete p s) t := by
  induction es generalizing s with
  | nil =>
    refine ⟨_, run_one (step_complete hin), engineStep_pend _, ?_⟩
    rw [engineStep_pending (s := s.withInputs []) hp]
    exact complete_congr p rfl rfl rfl rfl
  | cons e es ih =>
    obtain ⟨he, hrest⟩ := List.forall_mem_cons.mp hes
    obtain ⟨t, ht, hin', hp', hlive, hdigest, hdvalid, hphase⟩ := step_keeps_pending hp hin he
    obtain ⟨u, hu, hdone, hlive', hdigest', hdvalid', hphase'⟩ := ih hrest hp' hin'
    obtain ⟨hlive'', hdigest'', hdvalid'', hphase''⟩ := complete_congr p hlive hdigest hdvalid hphase
    exact ⟨u, (run_step ht).trans hu, hdone, hlive'.trans hlive'', hdigest'.trans hdigest'', hdvalid'.trans hdvalid'',
      hphase'.trans hphase''⟩

/-- Settles O11. -/
theorem resultDoesNotDependOnLatency : Obligations.ResultDoesNotDependOnLatency :=
  fun _ _ _ hp hin hes => run_to_completion hes hp hin

end Sys2Proof.Proofs
end

section
/-! The statement on hidden state (O55): each operation a step is made of takes states that differ in hidden state alone to
such states. -/

namespace Sys2Proof.Proofs

open Sys2Proof Sys2Proof.Machine Sys2Proof.Laws

/-! ## States that differ in hidden state -/

theorem sameButHidden_iff {s t : State} : SameButHidden s t ↔ ∃ q, t = { s with seq := q } :=
  ⟨fun h => ⟨t.seq, h.symm⟩, by rintro ⟨q, rfl⟩; rfl⟩

/-- Two outcomes that agree but for hidden state. -/
inductive SameOutcome : Host.Outcome State Fault Refusal → Host.Outcome State Fault Refusal → Prop where
  | next {s t : State} : SameButHidden s t → SameOutcome (.next s) (.next t)
  | refused (x : Refusal) : SameOutcome (.refused x) (.refused x)

theorem SameOutcome.exists_next {o o' : Host.Outcome State Fault Refusal} {s : State} (h : SameOutcome o o')
    (hs : o = .next s) : ∃ t, o' = .next t ∧ SameButHidden s t := by
  cases h with
  | next hst =>
    obtain rfl := Host.Outcome.next.inj hs
    exact ⟨_, rfl, hst⟩
  | refused x => cases hs

theorem SameOutcome.refused_iff {o o' : Host.Outcome State Fault Refusal} (h : SameOutcome o o') (x : Refusal) :
    o = .refused x ↔ o' = .refused x := by
  cases h with
  | next hst => exact iff_of_false nofun nofun
  | refused y => exact Iff.rfl

section
variable {s t : State} (h : SameButHidden s t)
include h

theorem sameButHidden_pend : t.pend = s.pend := by rw [← h]

theorem sameButHidden_withInputs (es : List Event) : SameButHidden (s.withInputs es) (t.withInputs es) := by
  obtain ⟨q, rfl⟩ := sameButHidden_iff.mp h
  rfl

theorem sameButHidden_readReg (r : Reg) : readReg s r = readReg t r := by
  obtain ⟨q, rfl⟩ := sameButHidden_iff.mp h
  exact (readReg_hidden s q s.port r).symm

theorem sameButHidden_takeInvalidInput (c : InvalidInput) : SameButHidden (takeInvalidInput c s) (takeInvalidInput c t) := by
  obtain ⟨q, rfl⟩ := sameButHidden_iff.mp h
  rw [takeInvalidInput_eq, takeInvalidInput_eq]
  rfl

/-- Acceptance writes the row of the sequencer and does not read hidden state. -/
theorem sameButHidden_accept (p : Pending) : SameButHidden (accept p s) (accept p t) := by
  obtain ⟨q, rfl⟩ := sameButHidden_iff.mp h
  rfl

theorem sameButHidden_beginFinalizing : SameButHidden (beginFinalizing s) (beginFinalizing t) := by
  obtain ⟨q, rfl⟩ := sameButHidden_iff.mp h
  rfl

theorem sameButHidden_recordOf (i : Instr) : recordOf t i = recordOf s i := by
  obtain ⟨q, rfl⟩ := sameButHidden_iff.mp h
  cases i with
  | nop | init | update nb | digest => rfl

theorem sameButHidden_complete (p : Pending) : SameButHidden (complete p s) (complete p t) := by
  obtain ⟨q, rfl⟩ := sameButHidden_iff.mp h
  cases p with
  | nop | init | update d | digest => rfl

theorem sameButHidden_engineStep : SameButHidden (engineStep s) (engineStep t) := by
  have ht := sameButHidden_pend h
  cases hp : s.pend with
  | none => rwa [engineStep_idle hp, engineStep_idle (ht.trans hp)]
  | some p =>
    rw [engineStep_pending hp, engineStep_pending (ht.trans hp)]
    exact sameButHidden_complete h p

/-- An internal step writes hidden state alone. -/
theorem sameButHidden_cycle : SameButHidden (cycle s) (cycle t) := by
  obtain ⟨q, rfl⟩ := sameButHidden_iff.mp h
  rfl

theorem sameButHidden_writeStatus (v : Word) : SameButHidden (writeStatus v s) (writeStatus v t) := by
  obtain ⟨q, rfl⟩ := sameButHidden_iff.mp h
  cases hv : v.getLsbD 2 with
  | false => rw [writeStatus_no_bit2 hv, writeStatus_no_bit2 hv]; rfl
  | true => rw [writeStatus_bit2 hv, writeStatus_bit2 hv]; rfl

/-! ## Steps -/

/-- A submission tests PEND and the command, and is the exception or acceptance in both states. -/
theorem sameOutcome_exec (i : Instr) : SameOutcome (exec i s) (exec i t) := by
  have ht := sameButHidden_pend h
  by_cases hp : s.pend = none
  · have hp' : t.pend = none := ht.trans hp
    cases hi : i.wf with
    | true =>
      by_cases hd : i = .digest
      · rw [hd, exec_digest_idle hp, exec_digest_idle hp']
        exact .next (sameButHidden_beginFinalizing (sameButHidden_accept h .digest))
      · rw [exec_accepts hp hi hd, exec_accepts hp' hi hd, sameButHidden_recordOf h]
        exact .next (sameButHidden_accept h _)
    | false =>
      cases i with
      | nop | init | digest => cases hi
      | update nb =>
        have hnb : 4 < nb.toNat := Nat.not_le.mp (of_decide_eq_false hi)
        rw [exec_update_bad hp hnb, exec_update_bad hp' hnb]
        exact .next (sameButHidden_takeInvalidInput h .badNb)
  · rw [exec_busy hp, exec_busy (ht ▸ hp)]
    exact .next (sameButHidden_takeInvalidInput h .busy)

theorem sameOutcome_writeCmd (v : Word) : SameOutcome (writeCmd v s) (writeCmd v t) := by
  have hbusy : t.busy = s.busy := by rw [State.busy, State.busy, sameButHidden_pend h]
  cases hdec : decodeCommand v s.busy with
  | error c =>
    rw [writeCmd_rejected hdec, writeCmd_rejected (hbusy ▸ hdec)]
    exact .next (sameButHidden_takeInvalidInput h c)
  | ok i =>
    have hi := (decodeCommand_ok_iff.mp hdec).2
    rw [writeCmd_decoded hi, writeCmd_decoded hi]
    exact sameOutcome_exec h i

theorem sameOutcome_writeReg (v : Word) (r : Reg) : SameOutcome (writeReg v s r) (writeReg v t r) := by
  cases r with
  | cmd => exact sameOutcome_writeCmd h v
  | status => exact .next (sameButHidden_writeStatus h v)
  | dataIn =>
    obtain ⟨q, rfl⟩ := sameButHidden_iff.mp h
    exact .next rfl
  | lenLo | lenHi | digest k | reserved => exact .next h

theorem sameOutcome_hostAccess (a : Access) : SameOutcome (hostAccess a s) (hostAccess a t) := by
  cases a with
  | read w off =>
    cases hbad : accessProblem w off with
    | some x => rw [hostAccess, hostAccess, hbad]; exact .refused x
    | none =>
      rw [hostAccess, hostAccess, hbad, ← sameButHidden_readReg h]
      obtain ⟨q, rfl⟩ := sameButHidden_iff.mp h
      exact .next rfl
  | write w off v =>
    cases hbad : accessProblem w off with
    | some x => rw [hostAccess, hostAccess, hbad]; exact .refused x
    | none => rw [hostAccess, hostAccess, hbad]; exact sameOutcome_writeReg h v _

theorem sameOutcome_runEvent (e : Event) : SameOutcome (runEvent e s) (runEvent e t) := by
  cases e with
  | access a => exact sameOutcome_hostAccess h a
  | complete => exact .next (sameButHidden_engineStep h)
  | cycle => exact .next (sameButHidden_cycle h)
  | reset =>
    obtain ⟨q, rfl⟩ := sameButHidden_iff.mp h
    exact .next rfl

theorem sameOutcome_step : SameOutcome (step s) (step t) := by
  have hin : t.port.inputs = s.port.inputs := by rw [← h]
  cases hs : s.port.inputs with
  | nil =>
    rw [step_nil hs, step_nil (hin.trans hs)]
    exact .next (sameButHidden_engineStep h)
  | cons e rest =>
    rw [step_cons hs, step_cons (hin.trans hs)]
    exact sameOutcome_runEvent (sameButHidden_withInputs h rest) e

end

/-- Settles O55: `sameOutcome_step`, read off for next states and refusals. -/
theorem hiddenStateIsUnobservable : Obligations.HiddenStateIsUnobservable :=
  fun _ _ h => ⟨sameButHidden_readReg h, fun _ => (sameOutcome_step h).exists_next, (sameOutcome_step h).refused_iff⟩

end Sys2Proof.Proofs
end

section
/-! The statement on the reference sequencer (O54): the rows of R150 are followed command by command, the 64 rounds between
LOAD and ADD once for all. -/

namespace Sys2Proof.Proofs

open Sys2Proof Sys2Proof.Machine Sys2Proof.Laws

/-! ## Runs of internal steps that stay out of DONE -/

/-- After `n` internal steps the hidden state is `q`, and no row before was DONE. -/
structure Reaches (n : Nat) (s : State) (q : Sequencer) : Prop where
  ends : (cycles n s).seq = q
  awake : ∀ k, k < n → (cycles k s).seq.ctl ≠ .done

theorem Reaches.refl (s : State) : Reaches 0 s s.seq := ⟨rfl, nofun⟩

theorem Reaches.state {n : Nat} {s : State} {q : Sequencer} (h : Reaches n s q) : cycles n s = { s with seq := q } := by
  rw [cycles_frame, h.ends]

theorem Reaches.trans {m n : Nat} {s : State} {q q' : Sequencer} (h : Reaches m s q)
    (h' : Reaches n { s with seq := q } q') : Reaches (m + n) s q' where
  ends := by rw [cycles_add, h.state, h'.ends]
  awake := fun k hk => by
    by_cases hkm : k < m
    · exact h.awake k hkm
    · obtain ⟨j, rfl⟩ := Nat.exists_eq_add_of_le (Nat.not_lt.mp hkm)
      rw [cycles_add, h.state]
      exact h'.awake j (by omega)

theorem reaches_one {s : State} (h : s.seq.ctl ≠ .done) : Reaches 1 s (seqStep s) :=
  ⟨rfl, fun k hk => by obtain rfl := Nat.lt_one_iff.mp hk; exact h⟩

/-- One row of the table, taken from a state with the given hidden state. -/
theorem reaches_row {s : State} {q q' : Sequencer} (h : q.ctl ≠ .done) (hq : seqStep { s with seq := q } = q') :
    Reaches 1 { s with seq := q } q' :=
  hq ▸ reaches_one h

/-! ## The 64 rounds -/

/-- The chaining value row LOAD takes: `SH` for DIGEST, else the copy of H. -/
def loadChain (p : Pending) (q : Sequencer) : Words8 := if pendingIsDigest p then q.sh else q.live.h

/-- The bytes row LOAD takes its block from. -/
def loadBlock (p : Pending) (q : Sequencer) : List Byte := if pendingIsDigest p then q.blk else q.live.buf

/-- The rolling window of a block at each round. -/
def windowSeq (blk : List Byte) : Nat → List Word
  | 0 => blockWords blk
  | t + 1 => windowShift t (windowSeq blk t)

/-- The row after `t` rounds. -/
def rowAt (t : Nat) : SeqState := if h : t < 64 then .round ⟨t, h⟩ else .add

/-- The hidden state `q` after `t` rounds over the block `blk` from the chaining value `c`. -/
def atRound (c : Words8) (blk : List Byte) (q : Sequencer) (t : Nat) : Sequencer :=
  { q with
    v := rounds (loadWorking c) ((kRom.zip (schedule blk)).take t)
    window := windowSeq blk t
    ctl := rowAt t }

theorem atRound_v (c : Words8) (blk : List Byte) (q : Sequencer) (t : Nat) :
    (atRound c blk q t).v = rounds (loadWorking c) ((kRom.zip (schedule blk)).take t) := rfl

theorem rowAt_of_lt {t : Nat} (h : t < 64) : rowAt t = .round ⟨t, h⟩ := dif_pos h

theorem rowAt_end : rowAt 64 = .add := rfl

theorem seqLoad_eq (p : Pending) (q : Sequencer) : seqLoad p q = atRound (loadChain p q) (loadBlock p q) q 0 := by
  cases h : pendingIsDigest p with
  | true => simp [seqLoad, loadChain, loadBlock, h, atRound, windowSeq, rowAt, rounds]
  | false => simp [seqLoad, loadChain, loadBlock, h, atRound, windowSeq, rowAt, rounds]

/-- Row ROUND(t) goes from `t` rounds to `t + 1`, the window supplying the schedule's word (R178, R181). -/
theorem seqRound_atRound (c : Words8) (blk : List Byte) (q : Sequencer) (t : Fin 64) :
    seqRound t (atRound c blk q t) = atRound c blk q (t + 1) := by
  have hwindow : WindowAt blk t (windowSeq blk t) := windowAt_of_shift rfl (fun _ _ => rfl) t t.isLt.le
  simp only [seqRound, atRound, rounds_take_succ _ (schedule_length blk) t.isLt, windowWord_eq hwindow t.isLt]
  rfl

section
variable {s : State} {p : Pending} (hp : s.pend = some p)
include hp

theorem reaches_atRound (c : Words8) (blk : List Byte) (q : Sequencer) (t : Nat) (ht : t ≤ 64) :
    Reaches t { s with seq := atRound c blk q 0 } (atRound c blk q t) := by
  induction t with
  | zero => exact .refl _
  | succ t ih =>
    have hrow : (atRound c blk q t).ctl = .round ⟨t, ht⟩ := rowAt_of_lt ht
    refine (ih (by omega)).trans (reaches_row (by rw [hrow]; nofun) ?_)
    simp only [seqStep, hp, hrow]
    exact seqRound_atRound c blk q ⟨t, ht⟩

/-- What rows LOAD, ROUND(0) to ROUND(63) and ADD make of the hidden state, `x` being the registers' Hasher. -/
def afterBlock (p : Pending) (x : Hasher) (q : Sequencer) : Sequencer :=
  seqAdd p x (atRound (loadChain p q) (loadBlock p q) q 64)

theorem reaches_afterBlock {q : Sequencer} (hq : q.ctl = .load) :
    Reaches 66 { s with seq := q } (afterBlock p s.live q) := by
  have hload : Reaches 1 { s with seq := q } (atRound (loadChain p q) (loadBlock p q) q 0) :=
    reaches_row (by rw [hq]; nofun) (by simp only [seqStep, hp, hq, seqLoad_eq])
  have hrow : (atRound (loadChain p q) (loadBlock p q) q 64).ctl = .add := rowAt_end
  refine (hload.trans (reaches_atRound hp _ _ _ 64 le_rfl)).trans (reaches_row (by rw [hrow]; nofun) ?_)
  simp only [seqStep, hp, hrow, afterBlock]

end

/-- The feed-forward of row ADD completes the compression (R184, R185). -/
theorem feedForward_atRound (c : Words8) (blk : List Byte) (q : Sequencer) :
    feedForward c (atRound c blk q 64).v = compress c blk := by
  rw [compress, rounds_all _ (schedule_length blk), atRound_v]

/-- UPDATE compresses the first block of its buffer into the copy of H, and goes on to SHIFT. -/
theorem afterBlock_update (d : List Byte) (x : Hasher) (q : Sequencer) :
    (afterBlock (.update d) x q).ctl = .shift ∧
      (afterBlock (.update d) x q).live = { q.live with h := compress q.live.h q.live.buf } :=
  ⟨rfl, congrArg (fun h => { q.live with h := h }) (feedForward_atRound q.live.h q.live.buf q)⟩

/-- DIGEST compresses the padded block into `SH`; PAD2 follows block 1 of 2, else OUT. -/
theorem afterBlock_digest (x : Hasher) (q : Sequencer) :
    (afterBlock .digest x q).ctl = (if 56 ≤ x.buf.length ∧ q.second = false then .pad2 else .out) ∧
      (afterBlock .digest x q).sh = compress q.sh q.blk :=
  ⟨rfl, feedForward_atRound q.sh q.blk q⟩

/-- Only the first 64 bytes are compressed. -/
theorem compress_take (c : Words8) (bs : List Byte) : compress c (bs.take 64) = compress c bs := by
  rw [compress, compress, schedule, schedule, blockWords_take]

/-! ## The commands -/

/-- The sequencer waits in DONE with the values the completion writes. -/
structure Prepared (p : Pending) (s : State) (q : Sequencer) : Prop where
  done : q.ctl = .done
  live : p = .init ∨ (∃ d, p = .update d) → q.live = (complete p s).live
  digest : p = .init ∨ p = .digest → q.digest = (complete p s).digest

section
variable {s : State}

theorem nop_prepares (hq : s.seq.ctl = .done) : ∃ q, Reaches 0 s q ∧ Prepared .nop s q :=
  ⟨s.seq, .refl s, hq, by simp, by simp⟩

theorem init_prepares (hp : s.pend = some .init) (hq : s.seq.ctl = .initLoad) :
    ∃ q, Reaches 1 s q ∧ Prepared .init s q := by
  refine ⟨_, reaches_one (by rw [hq]; nofun), ?_⟩
  simp only [seqStep, hp, hq]
  exact ⟨rfl, fun _ => rfl, fun _ => rfl⟩

section
variable {d : List Byte} (hp : s.pend = some (.update d)) (hq : s.seq.ctl = .append)
include hp hq

/-- Row APPEND. -/
theorem reaches_seqAppend : Reaches 1 s (seqAppend (.update d) s.live s.seq) :=
  reaches_row (q := s.seq) (by rw [hq]; nofun) (by simp only [seqStep, hp, hq])

/-- An UPDATE that completes no block goes from APPEND to DONE. -/
theorem update_prepares_short (hlen : s.live.buf.length + d.length < 64) :
    ∃ q, Reaches 1 s q ∧ Prepared (.update d) s q := by
  have hshort : ¬ 64 ≤ (s.live.buf ++ d).length := by rw [List.length_append]; omega
  refine ⟨_, reaches_seqAppend hp hq, if_neg hshort, fun _ => ?_, by simp⟩
  rw [complete_update_live, absorb_of_length_lt (by omega), if_neg hshort, if_neg hshort]
  rfl

/-- An UPDATE that completes a block compresses it and drops it from the buffer in row SHIFT. -/
theorem update_prepares_full (hlen : 64 ≤ s.live.buf.length + d.length) (hlt : s.live.buf.length + d.length < 128) :
    ∃ q, Reaches 68 s q ∧ Prepared (.update d) s q := by
  have hfull : 64 ≤ (s.live.buf ++ d).length := by rw [List.length_append]; omega
  have hload : (seqAppend (.update d) s.live s.seq).ctl = .load := if_pos hfull
  obtain ⟨hshift, hlive⟩ := afterBlock_update d s.live (seqAppend (.update d) s.live s.seq)
  refine ⟨_, ((reaches_seqAppend hp hq).trans (reaches_afterBlock hp hload)).trans
    (reaches_row (by rw [hshift]; nofun) rfl), ?_⟩
  simp only [seqStep, hp, hshift]
  refine ⟨rfl, fun _ => ?_, by simp⟩
  rw [complete_update_live, absorb_of_length_lt hlt, if_pos hfull, if_pos hfull, compress_take, hlive]
  rfl

end

section
variable (hp : s.pend = some .digest)
include hp

/-- Rows SNAP to ADD: the first padded block is compressed into the snapshot of H. -/
theorem reaches_firstBlock (hq : s.seq.ctl = .snap) :
    ∃ q, Reaches 67 s q ∧ q.ctl = (if 56 ≤ s.live.buf.length then .pad2 else .out) ∧
      q.sh = compress s.live.h ((pad s.live.buf s.live.totalLen).take 64) := by
  have hsnap := reaches_row (s := s) (q := s.seq) (by rw [hq]; nofun) (by simp only [seqStep, hp, hq]; rfl)
  refine ⟨_, hsnap.trans (reaches_afterBlock hp rfl), ?_, (afterBlock_digest _ _).2⟩
  rw [(afterBlock_digest _ _).1]
  simp only [and_true]

/-- Rows PAD2 to ADD: the second padded block is compressed after the first, and OUT follows. -/
theorem reaches_secondBlock {q : Sequencer} (hq : q.ctl = .pad2) :
    ∃ q', Reaches 67 { s with seq := q } q' ∧ q'.ctl = .out ∧
      q'.sh = compress q.sh ((pad s.live.buf s.live.totalLen).drop 64) := by
  have hpad := reaches_row (s := s) (q := q) (by rw [hq]; nofun) (by simp only [seqStep, hp, hq]; rfl)
  refine ⟨_, hpad.trans (reaches_afterBlock hp rfl), ?_, (afterBlock_digest _ _).2⟩
  rw [(afterBlock_digest _ _).1]
  exact if_neg (by simp)

/-- Row OUT: the snapshot is the digest, and the sequencer is done. -/
theorem reaches_out {q : Sequencer} (hq : q.ctl = .out) :
    ∃ q', Reaches 1 { s with seq := q } q' ∧ q'.ctl = .done ∧ q'.digest = q.sh :=
  ⟨_, reaches_row (by rw [hq]; nofun) (by simp only [seqStep, hp, hq]; rfl), rfl, rfl⟩

theorem digest_prepares_short (hq : s.seq.ctl = .snap) (hlen : s.live.buf.length ≤ 55) :
    ∃ q, Reaches 68 s q ∧ Prepared .digest s q := by
  obtain ⟨q, hfirst, hctl, hsh⟩ := reaches_firstBlock hp hq
  rw [if_neg (by omega)] at hctl
  obtain ⟨q', hout, hdone, hdigest⟩ := reaches_out hp hctl
  refine ⟨q', hfirst.trans hout, hdone, by simp, fun _ => ?_⟩
  rw [hdigest, hsh, compress_take, complete_digest_digest, finalize_short hlen]

theorem digest_prepares_long (hq : s.seq.ctl = .snap) (hlen : 56 ≤ s.live.buf.length) (hshort : s.live.buf.length ≤ 63) :
    ∃ q, Reaches 135 s q ∧ Prepared .digest s q := by
  obtain ⟨q, hfirst, hctl, hsh⟩ := reaches_firstBlock hp hq
  rw [if_pos hlen] at hctl
  obtain ⟨q', hsecond, hctl', hsh'⟩ := reaches_secondBlock hp hctl
  obtain ⟨q'', hout, hdone, hdigest⟩ := reaches_out hp hctl'
  refine ⟨q'', (hfirst.trans hsecond).trans hout, hdone, by simp, fun _ => ?_⟩
  rw [hdigest, hsh', hsh, complete_digest_digest, finalize_long hlen hshort]

end

/-- Every command reaches DONE after its reference latency, the row DONE itself not counted (R246). -/
theorem prepares_in_refLatency {p : Pending} (hp : s.pend = some p) (hbuf : s.live.buf.length ≤ 63)
    (hq : s.seq.ctl = firstRow p) (hbytes : ∀ d, p = .update d → d.length ≤ 4) :
    ∃ q, Reaches (refLatency s.live.buf.length p - 1) s q ∧ Prepared p s q := by
  cases p with
  | nop => exact nop_prepares hq
  | init => exact init_prepares hp hq
  | update d =>
    have hd := hbytes d rfl
    by_cases hfull : 64 ≤ s.live.buf.length + d.length
    · simp only [refLatency, if_pos hfull]
      exact update_prepares_full hp hq hfull (by omega)
    · simp only [refLatency, if_neg hfull]
      exact update_prepares_short hp hq (by omega)
  | digest =>
    by_cases hlen : s.live.buf.length ≤ 55
    · simp only [refLatency, if_pos hlen]
      exact digest_prepares_short hp hq hlen
    · simp only [refLatency, if_neg hlen]
      exact digest_prepares_long hp hq (by omega) hbuf

end

/-- Settles O54: `prepares_in_refLatency`, read off in the state the internal steps lead to. -/
theorem sequencerPreparesCompletion : Obligations.SequencerPreparesCompletion := by
  rintro s t p hp hbuf hq hbytes rfl
  obtain ⟨q, hreach, hdone, hlive, hdigest⟩ := prepares_in_refLatency hp hbuf hq hbytes
  rw [hreach.state]
  exact ⟨hdone, hreach.awake, hlive, hdigest, rfl⟩

end Sys2Proof.Proofs
end

section
/-! The statements on several engines (O56, O57): what an event of one engine and a routed access leave of the list of
engines. -/

namespace Sys2Proof.Proofs

open Sys2Proof Sys2Proof.Machine Sys2Proof.Laws

/-! ## Outcomes of the list of engines -/

theorem consEngine_next_iff {gs q : Platform} {o : Host.Outcome Engine Fault Refusal} :
    consEngine gs o = .next q ↔ ∃ g, o = .next g ∧ q = g :: gs := by
  cases o <;> simp [consEngine, eq_comm]

theorem keepEngine_next_iff {g : Engine} {q : Platform} {o : Host.Outcome Platform Fault Refusal} :
    keepEngine g o = .next q ↔ ∃ gs, o = .next gs ∧ q = g :: gs := by
  cases o <;> simp [keepEngine, eq_comm]

theorem engineAt_nil (e : Event) (i : Nat) : engineAt e i [] = .next [] := by simp [engineAt]

/-- An event of engine `i` leaves the others. -/
theorem engineAt_getElem?_ne {e : Event} {i j : Nat} {p q : Platform} (hj : j ≠ i) (h : engineAt e i p = .next q) :
    q[j]? = p[j]? := by
  induction p generalizing i j q with
  | nil =>
    rw [engineAt_nil] at h
    obtain rfl := Host.Outcome.next.inj h
    rfl
  | cons g gs ih =>
    cases i with
    | zero =>
      obtain ⟨g', -, rfl⟩ := consEngine_next_iff.mp h
      obtain ⟨j, rfl⟩ := Nat.exists_eq_succ_of_ne_zero hj
      rfl
    | succ i =>
      obtain ⟨gs', hgs, rfl⟩ := keepEngine_next_iff.mp h
      cases j with
      | zero => rfl
      | succ j => exact ih (by omega) hgs

/-- A routed access leaves every engine whose window does not hold the address. -/
theorem routeAccess_getElem?_outside {addr : Nat} {access : Nat → Access} {p q : Platform} {j : Nat} {g : Engine}
    (hg : p[j]? = some g) (hout : inWindow g addr = false) (h : routeAccess addr access p = .next q) :
    q[j]? = some g := by
  induction p generalizing j q with
  | nil => cases hg
  | cons x gs ih =>
    cases hx : inWindow x addr with
    | true =>
      rw [routeAccess, if_pos hx] at h
      obtain ⟨x', -, rfl⟩ := consEngine_next_iff.mp h
      cases j with
      | zero =>
        obtain rfl : x = g := Option.some.inj hg
        simp [hout] at hx
      | succ j => exact hg
    | false =>
      rw [routeAccess, if_neg (by simp [hx])] at h
      obtain ⟨gs', hgs, rfl⟩ := keepEngine_next_iff.mp h
      cases j with
      | zero => exact hg
      | succ j => exact ih (j := j) (q := gs') hg hgs

/-- Settles O56: an engine's own step by `engineAt_getElem?_ne`, an access by `routeAccess_getElem?_outside`. -/
theorem enginesAreIndependent : Obligations.EnginesAreIndependent := by
  refine ⟨fun p q i j hj h => ?_, fun p q w addr v j g hg hout h => ?_⟩
  · rcases h with h | h
    · exact engineAt_getElem?_ne hj h
    · exact engineAt_getElem?_ne hj h
  · rcases h with h | h
    · exact routeAccess_getElem?_outside hg hout h
    · exact routeAccess_getElem?_outside hg hout h

/-! ## Windows -/

theorem inWindow_iff {g : Engine} {addr : Nat} : inWindow g addr = true ↔ g.base ≤ addr ∧ addr < g.base + 0x40 := by
  simp [inWindow, Config.windowBytes]

/-- Bases that are multiples of the window's size and differ give windows that do not overlap (R6, R68). -/
theorem windows_disjoint {b c off : Nat} (hb : b % 0x40 = 0) (hc : c % 0x40 = 0) (hne : b ≠ c) (hoff : off < 0x40)
    (s : State) : inWindow ⟨b, s⟩ (c + off) = false := by
  rw [Bool.eq_false_iff, ne_eq, inWindow_iff]
  show ¬(b ≤ c + off ∧ c + off < b + 0x40)
  omega

theorem base_aligned {p : Config.Parameters} (hp : p.wf = true) {b : Nat} (hb : b ∈ p.bases) : b % 0x40 = 0 := by
  simp only [Config.Parameters.wf, Bool.and_eq_true, List.all_eq_true, decide_eq_true_eq] at hp
  obtain ⟨⟨-, haligned⟩, -⟩ := hp
  exact haligned b hb

/-- An access in an engine's window, and in no earlier engine's, is that engine's access at the offset. -/
theorem routeAccess_reaches {access : Nat → Access} {before after : Platform} {g : Engine} {off : Nat} {b : State}
    (hoff : off < 0x40) (hbefore : ∀ x ∈ before, inWindow x (g.base + off) = false)
    (hb : step (g.block.withInputs (.access (access off) :: g.block.port.inputs)) = .next b) :
    routeAccess (g.base + off) access (before ++ g :: after) = .next (before ++ { g with block := b } :: after) := by
  induction before with
  | nil =>
    have hin : inWindow g (g.base + off) = true := inWindow_iff.mpr ⟨by omega, by omega⟩
    rw [List.nil_append, routeAccess, if_pos hin, Nat.add_sub_cancel_left, engineEvent, hb]
    rfl
  | cons x xs ih =>
    obtain ⟨hx, hrest⟩ := List.forall_mem_cons.mp hbefore
    rw [List.cons_append, routeAccess, if_neg (by simp [hx]), ih hrest]
    rfl

/-- Settles O57: the engine takes the access as its own machine does, and `routeAccess_reaches` puts it in its place. -/
theorem windowAccessReachesItsEngine : Obligations.WindowAccessReachesItsEngine := by
  refine ⟨fun p b c off hp hb hc hne hoff => windows_disjoint (base_aligned hp hb) (base_aligned hp hc) hne hoff _,
    fun before after g off v h4 hoff hbefore => ?_, fun before after g off h4 hoff hbefore => ?_, fun p => ?_⟩
  · have hlegal : legalEvent (.access (.write .w32 off v)) = true :=
      (legalAccess_iff (v := v) (.inr rfl)).mpr ⟨rfl, h4, hoff⟩
    obtain ⟨b, hb, -⟩ := step_legal (s := g.block.withInputs _) rfl hlegal
    exact ⟨b, hb, routeAccess_reaches hoff hbefore hb⟩
  · have hread := step_read (s := g.block.withInputs (_ :: g.block.port.inputs)) h4 hoff rfl
    exact ⟨_, hread, readReg_hidden g.block g.block.seq _ _, routeAccess_reaches hoff hbefore hread⟩
  · exact ⟨_, rfl, List.length_map _, fun j g hg => by rw [List.getElem?_map, hg]; rfl⟩

end Sys2Proof.Proofs
end

section
/-! The statements on host programs (O58, O59): a statement's access, the shape of polled programs, and what the groups of
ABSORB latch and write. -/

namespace Sys2Proof.Proofs

open Sys2Proof Sys2Proof.Machine Sys2Proof.Laws

/-! ## Statements and accesses -/

theorem hostAfter_next {e : Event} {agent : State → HostAgent} {y z : System} (h : hostAfter e agent y = .next z) :
    ∃ b, step (y.block.withInputs (e :: y.block.port.inputs)) = .next b ∧ z = ⟨agent b, b⟩ := by
  unfold hostAfter at h
  split at h
  · next b hb => exact ⟨b, hb, (Host.Outcome.next.inj h).symm⟩
  · cases h
  · cases h

theorem hostVar_assign (n : Nat) (v : Word) (h : HostAgent) : hostVar (assign n v h) n = v := by
  simp [hostVar, assign]

/-- Settles O59: WR and RD are `hostAfter` of their access; the other statements keep the block. -/
theorem hostReachesEngineByAccessesAlone : Obligations.HostReachesEngineByAccessesAlone := by
  intro y z h
  rw [hostStep] at h
  cases hstmt : y.agent.prog[y.agent.pos]? with
  | none =>
    rw [hstmt] at h
    cases h; rfl
  | some stmt =>
    rw [hstmt] at h
    cases stmt with
    | wr off v =>
      obtain ⟨b, hb, rfl⟩ := hostAfter_next h
      exact hb
    | rd off n =>
      obtain ⟨b, hb, rfl⟩ := hostAfter_next h
      exact ⟨hb, hostVar_assign n _ _⟩
    | bnz n mask l | bz n mask l | sub n imm | li n imm | j l =>
      cases h; rfl

/-! ## Polled programs -/

/-- A program at position `pos` whose every CMD write is followed by a POLL and whose only branches are those of POLLs
(R91). -/
inductive Polled : Nat → List HostStmt → Prop where
  | nil (pos : Nat) : Polled pos []
  | poll {pos : Nat} {rest : List HostStmt} : Polled (pos + 2) rest → Polled pos (poll pos ++ rest)
  | cmd {pos : Nat} {rest : List HostStmt} (v : Word) :
      Polled (pos + 3) rest → Polled pos (.wr 0x00 v :: (Machine.poll (pos + 1) ++ rest))
  | data {pos : Nat} {rest : List HostStmt} (v : Word) : Polled (pos + 1) rest → Polled pos (.wr 0x08 v :: rest)
  | read {pos : Nat} {rest : List HostStmt} (off n : Nat) : Polled (pos + 1) rest → Polled pos (.rd off n :: rest)

@[simp] theorem poll_length (pos : Nat) : (poll pos).length = 2 := rfl

theorem Polled.moved {pos pos' : Nat} {prog : List HostStmt} (h : Polled pos prog) (hpos : pos = pos') :
    Polled pos' prog :=
  hpos ▸ h

theorem Polled.append {pos : Nat} {a b : List HostStmt} (ha : Polled pos a) (hb : Polled (pos + a.length) b) :
    Polled pos (a ++ b) := by
  induction ha with
  | nil => exact hb
  | poll _ ih => exact .poll (ih (hb.moved (by simp; omega)))
  | cmd v _ ih => exact .cmd v (ih (hb.moved (by simp; omega)))
  | data v _ ih => exact .data v (ih (hb.moved (by simp; omega)))
  | read off n _ ih => exact .read off n (ih (hb.moved (by simp; omega)))

/-- A branch stands at index `j + 1`, after a read of STATUS at `j`, and goes back to that read while BUSY is 1. -/
def BranchesBack (pos : Nat) (prog : List HostStmt) : Prop :=
  ∀ (i n l : Nat) (k : Word), prog[i]? = some (.bnz n k l) →
    ∃ j, i = j + 1 ∧ k = 1 ∧ l = pos + j ∧ prog[j]? = some (.rd 0x04 n)

/-- A statement in front that is no branch. -/
theorem BranchesBack.cons {pos : Nat} {rest : List HostStmt} {x : HostStmt} (hx : ∀ n k l, x ≠ .bnz n k l)
    (h : BranchesBack (pos + 1) rest) : BranchesBack pos (x :: rest) := by
  intro i n l k hi
  cases i with
  | zero => exact absurd (Option.some.inj hi) (hx n k l)
  | succ i =>
    obtain ⟨j, rfl, hk, hl, hread⟩ := h i n l k hi
    exact ⟨j + 1, rfl, hk, by omega, hread⟩

/-- A POLL in front. -/
theorem BranchesBack.poll {pos : Nat} {rest : List HostStmt} (h : BranchesBack (pos + 2) rest) :
    BranchesBack pos (poll pos ++ rest) := by
  intro i n l k hi
  match i, hi with
  | 0, hi => cases hi
  | 1, hi =>
    obtain ⟨rfl, rfl, rfl⟩ := HostStmt.bnz.inj (Option.some.inj hi)
    exact ⟨0, rfl, rfl, rfl, rfl⟩
  | i + 2, hi =>
    obtain ⟨j, rfl, hk, hl, hread⟩ := h i n l k hi
    exact ⟨j + 2, rfl, hk, by omega, hread⟩

theorem Polled.branchesBack {pos : Nat} {prog : List HostStmt} (h : Polled pos prog) : BranchesBack pos prog := by
  induction h with
  | nil => nofun
  | poll _ ih => exact ih.poll
  | cmd v _ ih => exact ih.poll.cons nofun
  | data v _ ih => exact ih.cons nofun
  | read off n _ ih => exact ih.cons nofun

/-- A CMD write is followed by a POLL. -/
def PollsAfterCommands (pos : Nat) (prog : List HostStmt) : Prop :=
  ∀ (i : Nat) (v : Word), prog[i]? = some (.wr 0x00 v) →
    prog[i + 1]? = some (.rd 0x04 rp) ∧ prog[i + 2]? = some (.bnz rp 0x1#32 (pos + i + 1))

/-- A statement in front that is no CMD write, or has its POLL after it. -/
theorem PollsAfterCommands.cons {pos : Nat} {rest : List HostStmt} {x : HostStmt}
    (hx : ∀ v, x = .wr 0x00 v → rest[0]? = some (.rd 0x04 rp) ∧ rest[1]? = some (.bnz rp 0x1#32 (pos + 1)))
    (h : PollsAfterCommands (pos + 1) rest) : PollsAfterCommands pos (x :: rest) := by
  intro i v hi
  cases i with
  | zero => exact hx v (Option.some.inj hi)
  | succ i =>
    obtain ⟨hread, hbranch⟩ := h i v hi
    rw [Nat.add_assoc pos 1 i, Nat.add_comm 1 i] at hbranch
    exact ⟨hread, hbranch⟩

theorem PollsAfterCommands.poll {pos : Nat} {rest : List HostStmt} (h : PollsAfterCommands (pos + 2) rest) :
    PollsAfterCommands pos (poll pos ++ rest) :=
  .cons nofun (.cons nofun h)

theorem Polled.pollsAfterCommands {pos : Nat} {prog : List HostStmt} (h : Polled pos prog) :
    PollsAfterCommands pos prog := by
  induction h with
  | nil => nofun
  | poll _ ih => exact ih.poll
  | cmd v _ ih => exact .cons (fun _ _ => ⟨rfl, rfl⟩) ih.poll
  | data v _ ih => exact ih.cons nofun
  | read off n _ ih => exact ih.cons nofun

/-! ## The groups of ABSORB -/

/-- `stmts` absorbs the bytes `m` group by group, each of 4 bytes but the last, which has 1 to 4 (R91). -/
inductive Absorbs : Nat → List Byte → List HostStmt → Prop where
  | nil (pos : Nat) : Absorbs pos [] []
  | group {pos : Nat} {g rest : List Byte} {stmts : List HostStmt} : 1 ≤ g.length → g.length ≤ 4 →
      (rest ≠ [] → g.length = 4) → Absorbs (pos + 4) rest stmts → Absorbs pos (g ++ rest) (absorbGroup pos g ++ stmts)

theorem absorbs_absorbStmts (pos : Nat) (m : List Byte) : Absorbs pos m (absorbStmts pos m) := by
  fun_induction absorbStmts pos m with
  | case1 pos => exact .nil pos
  | case2 pos b0 => exact .group (g := [b0]) (by simp) (by simp) nofun (.nil _)
  | case3 pos b0 b1 => exact .group (g := [b0, b1]) (by simp) (by simp) nofun (.nil _)
  | case4 pos b0 b1 b2 => exact .group (g := [b0, b1, b2]) (by simp) (by simp) nofun (.nil _)
  | case5 pos b0 b1 b2 b3 rest ih =>
    exact .group (g := [b0, b1, b2, b3]) (by simp) le_rfl (fun _ => rfl) ih

/-- A group's word, cut to the group's length, gives back its bytes (R65, R66). -/
theorem groupWord_bytes {g : List Byte} (h : g.length ≤ 4) :
    (bytes32 (be32 (g.getD 0 0) (g.getD 1 0) (g.getD 2 0) (g.getD 3 0))).take g.length = g := by
  rw [bytes32_be32]
  match g with
  | [] | [_] | [_, _] | [_, _, _] | [_, _, _, _] => rfl
  | _ :: _ :: _ :: _ :: _ :: _ =>
    simp only [List.length_cons] at h
    omega

theorem groupLength_toNat {g : List Byte} (h : g.length ≤ 4) : (BitVec.ofNat 3 g.length).toNat = g.length := by
  rw [BitVec.toNat_ofNat]
  omega

/-- A CMD write of INIT or DIGEST latches nothing. -/
theorem bytesOfUpdates_cmd {i : Instr} (hi : i = .init ∨ i = .digest) (d : Word) (tail : List HostStmt) :
    bytesOfUpdates d (cmdStmt i :: tail) = bytesOfUpdates d tail := by
  rcases hi with rfl | rfl
  · rfl
  · rfl

theorem bytesOfUpdates_poll (d : Word) (pos : Nat) (tail : List HostStmt) :
    bytesOfUpdates d (poll pos ++ tail) = bytesOfUpdates d tail := rfl

/-- A CMD write of UPDATE latches from the word written to DATA_IN before it. -/
theorem bytesOfUpdates_update {nb : BitVec 3} (hnb : nb.toNat ≤ 4) (d w : Word) (tail : List HostStmt) :
    bytesOfUpdates d (.wr 0x08 w :: cmdStmt (.update nb) :: tail) =
      (bytes32 w).take nb.toNat ++ bytesOfUpdates w tail := by
  have hdec : decode (encode (.update nb)) = .ok (.update nb) := decode_ok_iff.mpr ⟨update_wf hnb, rfl⟩
  simp [bytesOfUpdates, cmdStmt, hdec]

/-- A group's UPDATE latches the group. -/
theorem bytesOfUpdates_group {g : List Byte} (h : g.length ≤ 4) (d : Word) (pos : Nat) (tail : List HostStmt) :
    ∃ d', bytesOfUpdates d (absorbGroup pos g ++ tail) = g ++ bytesOfUpdates d' tail := by
  have hlen := groupLength_toNat h
  have hlatched := bytesOfUpdates_update (nb := BitVec.ofNat 3 g.length) (by omega) d
    (be32 (g.getD 0 0) (g.getD 1 0) (g.getD 2 0) (g.getD 3 0)) (poll (pos + 2) ++ tail)
  rw [hlen, groupWord_bytes h, bytesOfUpdates_poll] at hlatched
  exact ⟨_, hlatched⟩

theorem Absorbs.bytes {pos : Nat} {m : List Byte} {stmts tail : List HostStmt} (h : Absorbs pos m stmts)
    (htail : ∀ d, bytesOfUpdates d tail = []) (d : Word) : bytesOfUpdates d (stmts ++ tail) = m := by
  induction h generalizing d with
  | nil => exact htail d
  | group _ hle _ _ ih =>
    obtain ⟨d', hd'⟩ := bytesOfUpdates_group hle d _ _
    rw [List.append_assoc, hd', ih]

/-- The command words of UPDATE 1 to UPDATE 4 (R87). -/
def updateWords : List Word := [0x00000012#32, 0x00000022#32, 0x00000032#32, 0x00000042#32]

theorem encode_update_mem {n : Nat} (h : 1 ≤ n) (h' : n ≤ 4) : encode (.update (BitVec.ofNat 3 n)) ∈ updateWords := by
  interval_cases n <;> decide

/-- The groups write one UPDATE each. -/
theorem Absorbs.commands {pos : Nat} {m : List Byte} {stmts : List HostStmt} (h : Absorbs pos m stmts) :
    ∃ us : List Word, (∀ tail, commandsWritten (stmts ++ tail) = us ++ commandsWritten tail) ∧
      us.length = (m.length + 3) / 4 ∧ ∀ u ∈ us, u ∈ updateWords := by
  induction h with
  | nil => exact ⟨[], fun _ => rfl, rfl, nofun⟩
  | @group pos g rest stmts hge hle hfull _ ih =>
    obtain ⟨us, hwritten, hlen, hmem⟩ := ih
    refine ⟨encode (.update (BitVec.ofNat 3 g.length)) :: us, fun tail => ?_, ?_, ?_⟩
    · rw [List.append_assoc, List.cons_append, ← hwritten]
      rfl
    · rw [List.length_cons, hlen, List.length_append]
      by_cases hrest : rest = []
      · rw [hrest, List.length_nil]
        omega
      · rw [hfull hrest]
        omega
    · exact List.forall_mem_cons.mpr ⟨encode_update_mem hge hle, hmem⟩

theorem Absorbs.polled {pos : Nat} {m : List Byte} {stmts : List HostStmt} (h : Absorbs pos m stmts) :
    Polled pos stmts := by
  induction h with
  | nil pos => exact .nil pos
  | group _ _ _ _ ih => exact .data _ (.cmd _ ih)

/-! ## The program of HASH -/

/-- The reads of DIGEST0..7 that end HASH. -/
def readDigest : List HostStmt :=
  [.rd 0x20 0, .rd 0x24 1, .rd 0x28 2, .rd 0x2C 3, .rd 0x30 4, .rd 0x34 5, .rd 0x38 6, .rd 0x3C 7]

/-- The end of HASH at position `pos`: DIGEST, its POLL and the reads. -/
def digestStmts (pos : Nat) : List HostStmt := cmdStmt .digest :: (poll (pos + 1) ++ readDigest)

theorem hashStmts_eq (pos : Nat) (m : List Byte) :
    hashStmts pos m = createStmts pos m ++ digestStmts (pos + (createStmts pos m).length) := by
  simp [hashStmts, digestStmts, readDigest]

theorem createStmts_eq (pos : Nat) (m : List Byte) :
    createStmts pos m = poll pos ++ (cmdStmt .init :: (poll (pos + 3) ++ absorbStmts (pos + 5) m)) := by
  simp [createStmts]

theorem polled_digestStmts (pos : Nat) : Polled pos (digestStmts pos) :=
  .cmd _ (.read _ _ (.read _ _ (.read _ _ (.read _ _ (.read _ _ (.read _ _ (.read _ _ (.read _ _ (.nil _)))))))))

theorem polled_hashStmts (pos : Nat) (m : List Byte) : Polled pos (hashStmts pos m) := by
  have hcreate : Polled pos (createStmts pos m) := by
    rw [createStmts_eq]
    exact .poll (.cmd _ (absorbs_absorbStmts (pos + 5) m).polled)
  rw [hashStmts_eq]
  exact hcreate.append (polled_digestStmts _)

theorem bytesOfUpdates_hashStmts (d : Word) (pos : Nat) (m : List Byte) : bytesOfUpdates d (hashStmts pos m) = m := by
  rw [hashStmts_eq, createStmts_eq, List.append_assoc, bytesOfUpdates_poll, List.cons_append,
    bytesOfUpdates_cmd (.inl rfl), List.append_assoc, bytesOfUpdates_poll]
  exact (absorbs_absorbStmts (pos + 5) m).bytes (fun d => bytesOfUpdates_cmd (.inr rfl) d _) d

theorem commandsWritten_hashStmts (pos : Nat) (m : List Byte) :
    ∃ us : List Word, commandsWritten (hashStmts pos m) = [0x00000001#32] ++ us ++ [0x00000003#32] ∧
      us.length = (m.length + 3) / 4 ∧ ∀ u ∈ us, u ∈ updateWords := by
  obtain ⟨us, hwritten, hus⟩ := (absorbs_absorbStmts (pos + 5) m).commands
  refine ⟨us, ?_, hus⟩
  rw [hashStmts_eq, createStmts_eq]
  exact congrArg (fun ws => 0x00000001#32 :: ws) (hwritten _)

/-- Settles O58: `Polled` gives the branches and the POLLs, `Absorbs` the bytes and the commands. -/
theorem hashProgramAbsorbsMessage : Obligations.HashProgramAbsorbsMessage := by
  intro pos m d
  have hpolled := polled_hashStmts pos m
  refine ⟨bytesOfUpdates_hashStmts d pos m, commandsWritten_hashStmts pos m, fun i n l k hi => ?_, ?_,
    hpolled.pollsAfterCommands, (createStmts pos m).length, ?_, ?_⟩
  · obtain ⟨j, rfl, hk, hl, hread⟩ := hpolled.branchesBack i n l k hi
    exact ⟨hk, by omega, hread⟩
  · rw [hashStmts_eq, createStmts_eq]
    rfl
  · rw [hashStmts_eq, List.getElem?_append_right le_rfl, Nat.sub_self]
    rfl
  · rw [hashStmts_eq, List.drop_length_add_append]
    rfl

end Sys2Proof.Proofs
end
